-- ==== Sys2Proof/Word.lean ====
section
/-! DEFINITION. The widths of LSBMS (rule R8: REG_W = CMD_W = 16, REG_IDX_W = 3; rule R31: a pixel memory's unit is a
byte) and the names of the three pixel-memory address spaces (rule R30). -/

namespace Sys2Proof

/-- A channel value: one byte of a pixel memory (rules R7, R31). -/
abbrev Byte := BitVec 8

/-- A host-visible register, the register data bus and a command word (rule R8). -/
abbrev Word := BitVec 16

/-- The 3-bit register index of the register port (rules R8, R50). -/
abbrev RegIdx := BitVec 3

/-- The three disjoint pixel-memory address spaces (rule R30). -/
inductive Space where
  | A
  | B
  | O
  deriving DecidableEq, Repr

end Sys2Proof
end

