-- ==== Sys2Proof/Config.lean ====
section
/-! DEFINITION. The parameters the spec fixes (rules R7, R8) and the free values: what the spec leaves open, as constants
without a body, of which no proof can use a value. -/

namespace Sys2Proof

/-- NCH: channels per pixel (rule R7). -/
abbrev Config.channels : Nat := 3

/-- N_MIN and N_MAX: the legal significant-digit counts (rule R7). -/
abbrev Config.nMin : Nat := 1
abbrev Config.nMax : Nat := 8

/-- The number of addresses of a pixel memory: ADDR_W = 34 (rule R8). -/
abbrev Config.addrLimit : Nat := 2 ^ 34

/-- FREE VALUE (rule R46, U5; log entry 1): what a byte of a space that nothing has written holds. The same at every read. -/
opaque Config.powerUpByte : Space → Nat → Byte

/-- FREE VALUE (rule R122, U7; log entry 2): whether, after the n-th reset that cut a traversal short, the byte of O at an
address of the grid holds the value the completed command would have given it (true) or its old value (false). -/
opaque Config.abandonedFinal : Nat → Nat → Bool

end Sys2Proof
end

