-- ==== Sys2Proof/Syntax.lean ====
section
/-! DEFINITION. The commands of LSBMS: one constructor per row of spec/opcode_table.json. A command word has no register,
immediate or mode field (rule R52), so no constructor has an argument. -/

namespace Sys2Proof

inductive Instr where
  /-- EMBED, word 0x0001 (rules R53, R82). -/
  | embed
  /-- EXTRACT, word 0x0002 (rules R53, R83). -/
  | extract
  deriving DecidableEq, Repr

end Sys2Proof
end

