-- ==== Sys2Proof/Machine/State.lean ====
section
/-! DEFINITION. What LSBMS and its host hold (10_state.md), as plain data, and the state after reset (rule R24). The last
four fields are the model's own: the host's pending steps, what its reads returned, and what rule R122 needs. -/

namespace Sys2Proof.Machine

/-- STATUS[1:0] (rules R15, R56); all four codes are used. -/
inductive RunState where
  | idle
  | busy
  | done
  | error
  deriving DecidableEq, Repr

/-- STATUS[3:2] (rules R15, R57); all four codes are used. -/
inductive ErrCode where
  | noError
  | invalidConfiguration
  | dimensionMismatch
  | illegalCommand
  deriving DecidableEq, Repr

/-- OPL, one bit: 0 = EMBED, 1 = EXTRACT (rule R18). -/
inductive Operation where
  | embed
  | extract
  deriving DecidableEq, Repr

/-- The eight host-visible registers (rule R51). -/
inductive Reg where
  | nsig
  | aW
  | aH
  | bW
  | bH
  | cmd
  | status
  | errinfo
  deriving DecidableEq, Repr

/-- One step of the host (rules R10, R50, R59, R60). `port` is the register port's signals in one step together with `rst`
(rules R50, R120); `fill` and `dump` are accesses through the memories' own second ports; `wait` is the poll loop of R60. -/
inductive HostOp where
  | port (rst we re : Bool) (idx : RegIdx) (wdata : Word)
  | fill (space : Space) (addr : Nat) (bytes : List Byte)
  | dump (space : Space) (addr count : Nat)
  | wait
  deriving DecidableEq, Repr

/-- A line of the host's script: `delay` is how many controller steps the host lets pass, while the block is BUSY, before it
takes the line. Rule R128 leaves that number open; it is part of the input (log entry 3). -/
structure ScriptLine where
  delay : Nat
  op : HostOp
  deriving DecidableEq, Repr

/-- What one read of the host returned: a register's value on reg_rdata (rule R50), or bytes of a memory (rule R59). -/
inductive HostRead where
  | reg (r : Reg) (v : Word)
  | bytes (space : Space) (addr : Nat) (bs : List Byte)
  deriving DecidableEq, Repr

/-- The written bytes of one pixel memory: addresses strictly rising (`Memory.wf` in Ops). An unlisted address holds no
written byte. -/
abbrev Memory := List Host.Cell

structure State where
  /-- NSIG (rule R11). -/
  nsig : Word
  /-- A_W and A_H (rule R12). -/
  aW : Word
  aH : Word
  /-- B_W and B_H (rule R13). -/
  bW : Word
  bH : Word
  /-- STATUS.STATE (rule R15). -/
  state : RunState
  /-- STATUS.ERR (rule R15). -/
  err : ErrCode
  /-- ERRINFO (rule R16). -/
  errinfo : Word
  /-- OPL (rule R18). -/
  opl : Operation
  /-- The traversal position X, Y, C (rule R19). -/
  x : Word
  y : Word
  c : BitVec 2
  /-- The pixel memories A, B and O (rule R21). -/
  memA : Memory
  memB : Memory
  memO : Memory
  /-- MODEL'S OWN (log entry 2): O as the running command found it, the O0 of rule R82; empty when not BUSY. -/
  oldO : Memory
  /-- MODEL'S OWN (log entry 2): how many traversals a reset has cut short. -/
  abandons : Nat
  /-- MODEL'S OWN (log entry 3): the host's steps still to come. -/
  script : List ScriptLine
  /-- MODEL'S OWN (log entry 4): what the host's reads returned, oldest first. -/
  log : List HostRead
  deriving DecidableEq, Repr

/-- Why the machine stops. -/
inductive Fault where
  /-- Raised by `controllerStep` when NSIG is outside 1..8: rule R62 gives the mask no value there. Safe: rule R25(c) says no
  reachable state is one. -/
  | maskUndefined
  /-- Raised by `hostStep` for a FILL or DUMP that goes beyond the 34-bit address space (rule R30). Safe: no such address
  exists. -/
  | addressOutsideSpace
  deriving DecidableEq, Repr

/-- Why a step has no meaning. -/
inductive Refusal where
  /-- Raised by no arm of `exec`: every command has its meaning. Safe. -/
  | notModelled (mnemonic : String)
  /-- Raised by `hostStep` when reg_we and reg_re are both asserted without rst: rule R50 gives the host no such move (U9).
  Safe. -/
  | bothStrobes
  /-- Raised by `hostStep` when the host, while BUSY, writes a pixel memory or reads O: rule R42 gives the host no such move
  (U4). Safe. -/
  | hostTouchesBusyMemory
  deriving DecidableEq, Repr

/-- The three outcomes of a step of this machine. -/
abbrev StepOutcome := Host.Outcome State Fault Refusal

/-- Who moves next (rule R10). -/
inductive Move where
  /-- Nobody: the block is not BUSY and the host has no step to take. -/
  | idle
  | controller
  | host (op : HostOp) (rest : List ScriptLine)
  deriving DecidableEq, Repr

/-- The state after reset (rule R24), with nothing written in any pixel memory since power-up (rule R46) and no host step
pending. -/
def State.reset : State where
  nsig := 0x0001
  aW := 0x0000
  aH := 0x0000
  bW := 0x0000
  bH := 0x0000
  state := .idle
  err := .noError
  errinfo := 0x0000
  opl := .embed
  x := 0
  y := 0
  c := 0
  memA := []
  memB := []
  memO := []
  oldO := []
  abandons := 0
  script := []
  log := []

end Sys2Proof.Machine
end

