-- ==== Sys2Proof/Machine/Ops.lean ====
section
/-! DEFINITION. The named operations: bytes of a pixel memory, the updates of a state, the registers' index map, and ERROR
ENTRY as one operation (rule R107). There is no return from an error (rule R109): the next command simply starts. -/

namespace Sys2Proof.Machine

/-! ## One pixel memory (rules R31, R38, R46) -/

/-- The byte written at an address, if any has been. -/
def Memory.peek? : Memory → Nat → Option Byte
  | [], _ => none
  | (k, b) :: rest, a => if k = a then some b else Memory.peek? rest a

/-- The memory with the byte at an address replaced (`MemWrite`, rule R38). -/
def Memory.poke : Memory → Nat → Byte → Memory
  | [], a, v => [(a, v)]
  | (k, b) :: rest, a, v =>
    if a < k then (a, v) :: (k, b) :: rest
    else if a = k then (a, v) :: rest
    else (k, b) :: Memory.poke rest a v

/-- The memory with no written byte at an address. -/
def Memory.forget : Memory → Nat → Memory
  | [], _ => []
  | (k, b) :: rest, a => if k = a then rest else (k, b) :: Memory.forget rest a

/-- The memory with an address holding what `cell` says: a written byte, or none. -/
def Memory.setCell (m : Memory) (a : Nat) : Option Byte → Memory
  | some b => Memory.poke m a b
  | none => Memory.forget m a

/-- Bytes stored at ascending addresses from `a` (`FILL`, rule R59). -/
def Memory.pokeAll : Memory → Nat → List Byte → Memory
  | m, _, [] => m
  | m, a, b :: bs => Memory.pokeAll (Memory.poke m a b) (a + 1) bs

/-- What a read of one byte of a space returns: the written byte, else the byte's unspecified, stable power-up value, a free
value (`MemRead`, rules R38, R46). -/
def Memory.readByte (sp : Space) (m : Memory) (a : Nat) : Byte :=
  (Memory.peek? m a).getD (Config.powerUpByte sp a)

/-- What a read of `n` bytes from `a` upward returns (`DUMP`, rule R59). -/
def Memory.readBytes (sp : Space) (m : Memory) : Nat → Nat → List Byte
  | _, 0 => []
  | a, n + 1 => Memory.readByte sp m a :: Memory.readBytes sp m (a + 1) n

/-- The canonical form: addresses strictly rising, each inside the 34-bit space. -/
def Memory.wf : Memory → Bool
  | [] => true
  | (k, _) :: rest => decide (k < Config.addrLimit) && rest.all (fun e => decide (k < e.1)) && Memory.wf rest

/-! ## Updates of a state -/

/-- The contents of a space. -/
def State.mem (s : State) : Space → Memory
  | .A => s.memA
  | .B => s.memB
  | .O => s.memO

/-- One byte of a space, as a read returns it. -/
def State.read (s : State) (sp : Space) (a : Nat) : Byte := Memory.readByte sp (s.mem sp) a

def State.setMem (s : State) (m : Memory) : Space → State
  | .A => { s with memA := m }
  | .B => { s with memB := m }
  | .O => { s with memO := m }

/-- The traversal position update, `pos <- (x, y, c)` (rule R19). -/
def State.setPos (s : State) (x y : Word) (c : BitVec 2) : State := { s with x := x, y := y, c := c }

/-- STATE, ERR and ERRINFO written together (rules R15, R16). -/
def State.setOutcome (s : State) (st : RunState) (e : ErrCode) (info : Word) : State :=
  { s with state := st, err := e, errinfo := info }

/-- What the host has read, with one more read. -/
def State.record (s : State) (r : HostRead) : State := { s with log := s.log ++ [r] }

/-- ERROR ENTRY, `raise e(info)` (rule R107): STATE, ERR, ERRINFO and the position are written; OPL, the configuration
registers and every memory are unchanged; nothing is saved. -/
def State.raiseError (s : State) (e : ErrCode) (info : Word) : State :=
  (s.setOutcome .error e info).setPos 0 0 0

/-! ## The register index map (rule R51) -/

/-- The 3-bit index of a register. -/
def Reg.idx : Reg → RegIdx
  | .nsig => 0
  | .aW => 1
  | .aH => 2
  | .bW => 3
  | .bH => 4
  | .cmd => 5
  | .status => 6
  | .errinfo => 7

/-- The register an index names: all eight are assigned. -/
def Reg.ofIdx (i : RegIdx) : Reg :=
  match i.toNat with
  | 0 => .nsig
  | 1 => .aW
  | 2 => .aH
  | 3 => .bW
  | 4 => .bH
  | 5 => .cmd
  | 6 => .status
  | _ => .errinfo

/-- A write of a configuration register, with the whole 16-bit value (rules R11, R12, R13). CMD, STATUS and ERRINFO hold
nothing a write could change (rules R14, R17). -/
def State.writeConfig (s : State) (v : Word) : Reg → State
  | .nsig => { s with nsig := v }
  | .aW => { s with aW := v }
  | .aH => { s with aH := v }
  | .bW => { s with bW := v }
  | .bH => { s with bH := v }
  | .cmd => s
  | .status => s
  | .errinfo => s

end Sys2Proof.Machine
end

