-- ==== Sys2Proof/Machine/Operands.lean ====
section
/-! DEFINITION. The implicit operands of the two commands (rule R55): N, the dimensions, and the one addressing mode
(rules R32, R87). -/

namespace Sys2Proof.Machine

/-- `idx(x, y, c, W)`, on naturals (rules R32, R35). -/
def idx (x y c w : Nat) : Nat := (y * w + x) * 3 + c

/-- The address the next controller step presents to every port it uses (rule R87). -/
def State.addr (s : State) : Nat := idx s.x.toNat s.y.toNat s.c.toNat s.aW.toNat

/-- N is the full unsigned value of NSIG, and legal in 1..8 (rules R11, R55). -/
abbrev State.NLegal (s : State) : Prop := Config.nMin ≤ s.nsig.toNat ∧ s.nsig.toNat ≤ Config.nMax

/-- The grids of A and B have equal width and equal height (rules R13, R102). -/
abbrev State.DimsMatch (s : State) : Prop := s.aW = s.bW ∧ s.aH = s.bH

/-- A grid of no pixels (rule R89). -/
abbrev State.EmptyGrid (s : State) : Prop := s.aW = 0 ∨ s.aH = 0

/-- `3*W*H`: how many channels the grid of A has, and so how many bytes a command reads and writes (rule R34). -/
def State.gridBytes (s : State) : Nat := 3 * s.aW.toNat * s.aH.toNat

end Sys2Proof.Machine
end

