-- ==== Sys2Proof/Machine/MaskGen.lean ====
section
/-! DEFINITION. The mask generator MASKGEN (40_mask_generator.md): combinational, partial outside 1..8 (rule R62). The mask is
not state (rule R20). -/

namespace Sys2Proof.Machine

/-- `MASK(n) = (1 << n) − 1` for 1 ≤ n ≤ 8 (rules R61, R66); no value elsewhere (rule R62). -/
def mask? (n : Nat) : Option Byte :=
  if Config.nMin ≤ n ∧ n ≤ Config.nMax then some (BitVec.ofNat 8 ((1 <<< n) - 1)) else none

/-- `255 − m`, the complement of a mask on 8 bits (rule R64). -/
def complement (m : Byte) : Byte := 255 - m

/-- `NMASK(n)` (rule R64). -/
def nmask? (n : Nat) : Option Byte := (mask? n).map complement

/-- The mask wires: a function of NSIG at all times (rules R20, R65). -/
def State.mask? (s : State) : Option Byte := Sys2Proof.Machine.mask? s.nsig.toNat

end Sys2Proof.Machine
end

