-- ==== Sys2Proof/Machine/Merger.lean ====
section
/-! DEFINITION. The channel merger/splitter CHMS (41_channel_merger.md): combinational, total, without flags (rules R77,
R78). -/

namespace Sys2Proof.Machine

/-- `EMBED_CH(h, p, m) = (h & (255 − m)) | (p & m)` (rule R70). -/
def embedCh (h p m : Byte) : Byte := (h &&& complement m) ||| (p &&& m)

/-- `EXTRACT_CH(s, m) = s & m`, without a shift (rules R74, R75). -/
def extractCh (s m : Byte) : Byte := s &&& m

/-- The byte a controller step writes at address `a` with mask `m`: EMBED reads A and B there, EXTRACT only A (rules R39,
R84, R93). -/
def State.channelOut (s : State) (m : Byte) (a : Nat) : Byte :=
  match s.opl with
  | .embed => embedCh (s.read .A a) (s.read .B a) m
  | .extract => extractCh (s.read .A a) m

end Sys2Proof.Machine
end

