-- ==== Sys2Proof/Machine/Controller.lean ====
section
/-! DEFINITION. The pixel-grid traversal controller PGTC, small-step (42_traversal_commands.md section 3). -/

namespace Sys2Proof.Machine

/-- `(X, Y, C) == (W−1, H−1, 2)`: the last channel of the grid (rule R84). -/
abbrev State.LastChannel (s : State) : Prop :=
  s.x.toNat + 1 = s.aW.toNat ∧ s.y.toNat + 1 = s.aH.toNat ∧ s.c = 2

/-- `pos <- next(X, Y, C)`: the channel innermost, the row in the middle, the column outermost (rule R85). -/
def State.nextPos (s : State) : State :=
  if s.c.toNat < 2 then s.setPos s.x s.y (s.c + 1)
  else if s.y.toNat + 1 < s.aH.toNat then s.setPos s.x (s.y + 1) 0
  else s.setPos (s.x + 1) 0 0

/-- The end of a traversal: the position returns to (0, 0, 0) and STATE becomes DONE (rules R19, R84). The saved old
contents of O are dropped with it. -/
def State.finish (s : State) : State :=
  { s.setPos 0 0 0 with state := .done, oldO := [] }

/-- The end of a controller step: DONE at the last channel, else the next position (rule R84). -/
def State.advance (s : State) : State := if s.LastChannel then s.finish else s.nextPos

/-- The write of O in a controller step, `MemWrite(O, a, 1, o)`; the reads of A (and B) come before it (rules R40, R84). -/
def State.writeChannel (s : State) (m : Byte) : State :=
  s.setMem (Memory.poke s.memO s.addr (s.channelOut m s.addr)) .O

/-- One controller step (rule R84), taken only while BUSY: one channel is read, computed and written, and the position
advances. Where NSIG is outside 1..8, which rule R25(c) excludes, the mask has no value and the step stops (rule R62). -/
def controllerStep (s : State) : StepOutcome :=
  match s.mask? with
  | none => .fault .maskUndefined
  | some m => .next (s.writeChannel m).advance

end Sys2Proof.Machine
end

