-- ==== Sys2Proof/Decode.lean ====
section
/-! DEFINITION. The command decoder: all 16 bits are compared (rule R53), every other word is reserved and rejected by name
(rule R54). After it the encoder, and the decoder on words numbered as spec/opcode_table.json numbers them. -/

namespace Sys2Proof

/-- Why a command word is no command. -/
inductive DecodeReject where
  /-- One of the 65534 reserved words (rule R54). -/
  | reservedWord (w : Word)
  deriving DecidableEq, Repr

/-- The command a word written to CMD names (rules R52, R53). -/
def decode (w : Word) : Except DecodeReject Instr :=
  if w = 0x0001 then .ok .embed
  else if w = 0x0002 then .ok .extract
  else .error (.reservedWord w)

/-- The word of a command (rule R53). -/
def encode : Instr → Word
  | .embed => 0x0001
  | .extract => 0x0002

/-- What a decoding answers, as an option. -/
def decoded? : Except DecodeReject Instr → Option Instr
  | .ok i => some i
  | .error _ => none

/-- The 16-bit command word whose low `nbits` bits are those of `w` and whose other bits are 0; none where the bits do not
fit a command word (rule R52: one length, 16 bits). -/
def tableWord? (nbits w : Nat) : Option Word :=
  let v := w % 2 ^ nbits
  if v < 65536 then some (BitVec.ofNat 16 v) else none

/-- The instruction the decoder reads from a table word. The 16-bit bus moves the word whole, so there is no byte order to
apply (rule R36). -/
def decodeTableWord (nbits w : Nat) : Option Instr :=
  (tableWord? nbits w).bind fun v => decoded? (decode v)

end Sys2Proof
end

