-- ==== Sys2Proof/Machine/Commands.lean ====
section
/-! DEFINITION. The commands EMBED and EXTRACT: the host step that writes the command word to CMD (rules R14, R81). An accepted
command starts a traversal, which `controllerStep` carries out (rules R82, R83, R95). -/

namespace Sys2Proof.Machine

/-- An accepted command (rule R81, its last five lines): ERR and ERRINFO cleared, OPL latched, the position at (0, 0, 0),
STATE BUSY, or DONE at once on an empty grid (rule R89). The contents of O are saved for rule R122. -/
def State.startTraversal (s : State) (op : Operation) : State :=
  if s.EmptyGrid then { (s.setOutcome .done .noError 0x0000).setPos 0 0 0 with opl := op }
  else { (s.setOutcome .busy .noError 0x0000).setPos 0 0 0 with opl := op, oldO := s.memO }

/-- The check of N, common to both commands: InvalidConfiguration with the value of NSIG (rules R81, R101). -/
def State.checkN (s : State) (accept : State) : State :=
  if s.NLegal then accept else s.raiseError .invalidConfiguration s.nsig

/-- The check of the dimensions, EMBED only: DimensionMismatch (rules R81, R102). -/
def State.checkDims (s : State) (accept : State) : State :=
  if s.DimsMatch then accept else s.raiseError .dimensionMismatch 0x0000

/-- A write to CMD while BUSY is ignored (rules R14, R17). -/
def State.unlessBusy (s : State) (t : State) : State := if s.state = .busy then s else t

/-- EMBED (rules R81, R82, R106): the check of N, then of the dimensions, then the traversal. -/
def execEmbed (s : State) : StepOutcome :=
  .next (s.unlessBusy (s.checkN (s.checkDims (s.startTraversal .embed))))

/-- EXTRACT (rules R81, R83, R93): the check of N, then the traversal; no dimension check. -/
def execExtract (s : State) : StepOutcome :=
  .next (s.unlessBusy (s.checkN (s.startTraversal .extract)))

/-- A reserved word: IllegalCommand with the word (rules R54, R81, R103). -/
def State.rejectWord (s : State) (w : Word) : State :=
  s.unlessBusy (s.raiseError .illegalCommand w)

end Sys2Proof.Machine
end

