-- ==== Sys2Proof/Machine/Dispatch.lean ====
section
/-! DEFINITION. One arm per command. -/

namespace Sys2Proof.Machine

def exec (i : Instr) (s : State) : Host.Outcome State Fault Refusal :=
  match i with
  | .embed => Sys2Proof.Machine.execEmbed s
  | .extract => Sys2Proof.Machine.execExtract s

end Sys2Proof.Machine
end

