-- ==== Sys2Proof/Machine/Flags.lean ====
section
/-! DEFINITION. The block's only flags, STATE and ERR: their codes (rules R56, R57), the STATUS word (rule R15), the level
outputs (rule R23), and what a read of each register returns (rule R17). No datapath operation sets a flag (rule R15). -/

namespace Sys2Proof.Machine

/-- STATUS[1:0] (rule R56). -/
def RunState.code : RunState → BitVec 2
  | .idle => 0
  | .busy => 1
  | .done => 2
  | .error => 3

/-- STATUS[3:2] (rule R57). -/
def ErrCode.code : ErrCode → BitVec 2
  | .noError => 0
  | .invalidConfiguration => 1
  | .dimensionMismatch => 2
  | .illegalCommand => 3

/-- OPL as its bit (rule R18). -/
def Operation.code : Operation → BitVec 1
  | .embed => 0
  | .extract => 1

/-- The STATUS register: ERR above STATE, bits 15..4 zero (rule R15). -/
def State.statusWord (s : State) : Word := (0 : BitVec 12) ++ s.err.code ++ s.state.code

/-- The level output `busy` (rule R23). -/
def State.busyOut (s : State) : Bool := decide (s.state = .busy)

/-- The level output `done` (rule R23). -/
def State.doneOut (s : State) : Bool := decide (s.state = .done)

/-- The level output `error` (rule R23). -/
def State.errorOut (s : State) : Bool := decide (s.state = .error)

/-- What a host read of a register puts on reg_rdata: its current value, 0x0000 for CMD (rules R17, R50). -/
def State.readReg (s : State) : Reg → Word
  | .nsig => s.nsig
  | .aW => s.aW
  | .aH => s.aH
  | .bW => s.bW
  | .bH => s.bH
  | .cmd => 0x0000
  | .status => s.statusWord
  | .errinfo => s.errinfo

end Sys2Proof.Machine
end

