-- ==== Sys2Proof/Machine/ResetOp.lean ====
section
/-! DEFINITION. The reset of the block (rules R121, R122, R123), as an operation on any state. -/

namespace Sys2Proof.Machine

/-- O after a reset that cut a traversal short, settled for the addresses below `n`: each byte of the grid holds the value the
completed command would have given it or its old value, and which is a free choice (rule R122). -/
def State.abandonedO (s : State) (m : Byte) : Nat → Memory
  | 0 => s.memO
  | n + 1 =>
    if Config.abandonedFinal s.abandons n then Memory.poke (s.abandonedO m n) n (s.channelOut m n)
    else Memory.setCell (s.abandonedO m n) n (Memory.peek? s.oldO n)

/-- Every state element inside the block at its reset value (rules R24, R121). -/
def State.resetBlock (s : State) : State :=
  { s with
    nsig := State.reset.nsig, aW := State.reset.aW, aH := State.reset.aH, bW := State.reset.bW, bH := State.reset.bH,
    state := State.reset.state, err := State.reset.err, errinfo := State.reset.errinfo, opl := State.reset.opl,
    x := State.reset.x, y := State.reset.y, c := State.reset.c, oldO := State.reset.oldO }

/-- A traversal abandoned by reset: O's bytes are settled by rule R122, and the count of such resets goes up. In a state with
N outside 1..8 no controller step can have been taken, and O stays. -/
def State.abandon (s : State) : State :=
  match s.mask? with
  | some m => { s with memO := s.abandonedO m s.gridBytes, abandons := s.abandons + 1 }
  | none => { s with abandons := s.abandons + 1 }

/-- A step with rst = 1: the block takes its reset values; the pixel memories are kept (rule R123), but for O when a
traversal is cut short (rule R122). -/
def State.assertReset (s : State) : State :=
  if s.state = .busy then s.abandon.resetBlock else s.resetBlock

end Sys2Proof.Machine
end

