-- ==== Sys2Proof/Machine/HostPort.lean ====
section
/-! DEFINITION. The host's steps (rules R10, R17, R50, R59): the register port with its CMD trigger, the memories' second
ports, and reset. -/

namespace Sys2Proof.Machine

/-- A word written to CMD: the command it names is executed, a reserved word is rejected (rules R14, R53, R54, R81). -/
def issueCommand (v : Word) (s : State) : StepOutcome :=
  match decode v with
  | .ok i => exec i s
  | .error (.reservedWord w) => .next (s.rejectWord w)

/-- A register write (rule R17): CMD issues a command; STATUS and ERRINFO ignore it; a configuration register takes the value
unless BUSY. -/
def writeReg (r : Reg) (v : Word) (s : State) : StepOutcome :=
  match r with
  | .cmd => issueCommand v s
  | _ => .next (s.unlessBusy (s.writeConfig v r))

/-- A register read: the value goes to the host and the block does not change (rule R17). -/
def readRegStep (r : Reg) (s : State) : State := s.record (.reg r (s.readReg r))

/-- One step of the register port with rst (rules R50, R113, R121): reset overrides any access; both strobes together are no
move of the host's (U9); neither strobe is no access. -/
def portStep (rst we re : Bool) (i : RegIdx) (wdata : Word) (s : State) : StepOutcome :=
  if rst then .next s.assertReset
  else if we && re then .refused .bothStrobes
  else if we then writeReg (Reg.ofIdx i) wdata s
  else if re then .next (readRegStep (Reg.ofIdx i) s)
  else .next s

/-- The host's write of bytes at ascending addresses of a space (rules R21, R59). While BUSY the host has no such move (rule
R42). -/
def fillStep (sp : Space) (a : Nat) (bs : List Byte) (s : State) : StepOutcome :=
  if s.state = .busy then .refused .hostTouchesBusyMemory
  else if a + bs.length ≤ Config.addrLimit then .next (s.setMem (Memory.pokeAll (s.mem sp) a bs) sp)
  else .fault .addressOutsideSpace

/-- The host's read of bytes of a space (rules R21, R59). While BUSY the host may read A and B but not O (rule R42). -/
def dumpStep (sp : Space) (a n : Nat) (s : State) : StepOutcome :=
  if s.state = .busy ∧ sp = .O then .refused .hostTouchesBusyMemory
  else if a + n ≤ Config.addrLimit then .next (s.record (.bytes sp a (Memory.readBytes sp (s.mem sp) a n)))
  else .fault .addressOutsideSpace

/-- WAIT (rule R60): the last poll of STATUS, which finds the block not BUSY, is the result. A poll that finds it BUSY changes
nothing (rule R17) and the line stays. -/
def waitStep (s : State) : State :=
  if s.state = .busy then { s with script := ⟨0, .wait⟩ :: s.script } else readRegStep .status s

/-- One host step. -/
def hostStep (op : HostOp) (s : State) : StepOutcome :=
  match op with
  | .port rst we re i wdata => portStep rst we re i wdata s
  | .fill sp a bs => fillStep sp a bs s
  | .dump sp a n => dumpStep sp a n s
  | .wait => .next (waitStep s)

end Sys2Proof.Machine
end

