-- ==== Sys2Proof/Machine/Script.lean ====
section
/-! DEFINITION. The host script notation of rules R59 and R60 as port encodings. -/

namespace Sys2Proof.Machine

/-- `WR r, v` (rule R59). -/
def HostOp.wr (r : Reg) (v : Word) : HostOp := .port false true false r.idx v

/-- `RD r` (rule R59). -/
def HostOp.rd (r : Reg) : HostOp := .port false false true r.idx 0

/-- `CMD EMBED` and `CMD EXTRACT` (rules R59, R60). -/
def HostOp.command (i : Instr) : HostOp := HostOp.wr .cmd (encode i)

/-- `RESET` (rule R59). -/
def HostOp.resetLine : HostOp := .port true false false 0 0

/-- `SETDIM w, h` (rule R60). -/
def HostOp.setDim (w h : Word) : List HostOp :=
  [HostOp.wr .aW w, HostOp.wr .aH h, HostOp.wr .bW w, HostOp.wr .bH h]

/-- A script whose lines the host takes as soon as it can. -/
def scriptOf (ops : List HostOp) : List ScriptLine := ops.map fun op => ⟨0, op⟩

end Sys2Proof.Machine
end

