-- ==== Sys2Proof/Machine/Schedule.lean ====
section
/-! DEFINITION. Who moves next (rules R10, R41, R128). While BUSY the controller's step is always enabled (rule R88); the host's
next line is taken once its delay has run out, and WAIT once the block is no longer BUSY. -/

namespace Sys2Proof.Machine

/-- While BUSY this line lets the controller step first. -/
def ScriptLine.holdsBack (l : ScriptLine) : Bool := decide (l.delay ≠ 0) || decide (l.op = .wait)

/-- Who moves next: not BUSY, the host's next line; BUSY, the host's next line unless it holds back, else the controller. -/
def State.nextMove (s : State) : Move :=
  match s.script with
  | [] => if s.state = .busy then .controller else .idle
  | l :: rest => if s.state = .busy ∧ l.holdsBack then .controller else .host l.op rest

/-- One controller step less to wait for. -/
def countDown : List ScriptLine → List ScriptLine
  | [] => []
  | l :: rest => { l with delay := l.delay - 1 } :: rest

/-- The state the controller steps from: only the waiting line's delay has gone down. -/
def State.tick (s : State) : State := { s with script := countDown s.script }

/-- A CMD write as the very next host step: the place a command is taken from (rules R14, R44). -/
def State.pushCommand (s : State) (v : Word) : State :=
  { s with script := ⟨0, HostOp.wr .cmd v⟩ :: s.script }

end Sys2Proof.Machine
end

