-- ==== Sys2Proof/Machine/Step.lean ====
section
/-! DEFINITION. One step of the machine: one atomic step of one agent (rules R10, R41). -/

namespace Sys2Proof.Machine

/-- One step: the host's next line, or a controller step, or nothing where no agent has a step to take (rule R115: IDLE, DONE
and ERROR are states in which the controller has no enabled step). -/
def step (s : State) : Host.Outcome State Fault Refusal :=
  match s.nextMove with
  | .idle => .next s
  | .controller => controllerStep s.tick
  | .host op rest => hostStep op { s with script := rest }

/-- `s` with the table word as the CMD write that is the very next step (rules R14, R44); bits that fit no command word leave
`s` as it is. -/
def State.withFetchWord (s : State) (nbits w : Nat) : State :=
  match tableWord? nbits w with
  | some v => s.pushCommand v
  | none => s

end Sys2Proof.Machine
end

