-- ==== Sys2Proof/WellFormed.lean ====
section
/-! DEFINITION. What is well-formed: every command (rule R52: a command word has no field that could be ill-formed), and of
the host's steps those the spec gives the host. -/

namespace Sys2Proof

/-- A command has no operand field to check (rule R52). -/
def Instr.wellFormed : Instr → Bool
  | .embed => true
  | .extract => true

/-- A host step the spec gives the host: not both strobes, unless reset overrides them (rules R50, R121), and memory accesses
inside the 34-bit address space (rule R30). -/
def Machine.HostOp.wellFormed : Machine.HostOp → Bool
  | .port rst we re _ _ => rst || !(we && re)
  | .fill _ addr bytes => decide (addr + bytes.length ≤ Config.addrLimit)
  | .dump _ addr count => decide (addr + count ≤ Config.addrLimit)
  | .wait => true

end Sys2Proof
end

