-- ==== Sys2Proof/Safety.lean ====
section
/-! DEFINITION. The terms claims use: the invariants of rule R25 and of the memories, the traversal order of rule R86, the
progress of a running traversal, and the end states of rules R82 and R83. -/

namespace Sys2Proof.Machine

/-! ## Invariants -/

/-- Rule R25, clauses (a) to (d). -/
abbrev State.RegisterInv (s : State) : Prop :=
  (s.err ≠ .noError ↔ s.state = .error) ∧
  (s.errinfo ≠ 0 → s.state = .error ∧ (s.err = .invalidConfiguration ∨ s.err = .illegalCommand)) ∧
  (s.state = .busy →
    s.NLegal ∧ 1 ≤ s.aW.toNat ∧ 1 ≤ s.aH.toNat ∧ s.x.toNat < s.aW.toNat ∧ s.y.toNat < s.aH.toNat ∧ s.c.toNat ≤ 2 ∧
      (s.opl = .embed → s.bW = s.aW ∧ s.bH = s.aH)) ∧
  (s.state ≠ .busy → s.x = 0 ∧ s.y = 0 ∧ s.c = 0)

/-- Every memory is in canonical form, and the saved old contents of O exist only while BUSY. -/
abbrev State.MemoryInv (s : State) : Prop :=
  Memory.wf s.memA = true ∧ Memory.wf s.memB = true ∧ Memory.wf s.memO = true ∧ Memory.wf s.oldO = true ∧
  (s.state ≠ .busy → s.oldO = [])

/-! ## The traversal order -/

/-- The position of step number `k` of a traversal of a grid of height `h` (rule R86). -/
def posAt (h k : Nat) : Nat × Nat × Nat := (k / (3 * h), k / 3 % h, k % 3)

/-- The address step number `k` touches (rule R86). -/
def addrAt (w h k : Nat) : Nat := idx (k / (3 * h)) (k / 3 % h) (k % 3) w

/-- The byte the completed command gives address `a` of the grid (rules R82, R83). -/
def State.finalByte? (s : State) (a : Nat) : Option Byte := s.mask?.map fun m => s.channelOut m a

/-- A traversal after `k` of its steps: the position is the one of step `k`, the addresses of the steps taken hold their final
bytes, and every other cell of O is as the command found it (rules R84, R86). -/
def State.TraversedTo (s : State) (k : Nat) : Prop :=
  (s.x.toNat, s.y.toNat, s.c.toNat) = posAt s.aH.toNat k ∧
  (∀ j < k, Memory.peek? s.memO (addrAt s.aW.toNat s.aH.toNat j) = s.finalByte? (addrAt s.aW.toNat s.aH.toNat j)) ∧
  (∀ a, (∀ j < k, addrAt s.aW.toNat s.aH.toNat j ≠ a) → Memory.peek? s.memO a = Memory.peek? s.oldO a)

/-- While BUSY the traversal has taken some of its `3*W*H` steps, not all. -/
def State.Progress (s : State) : Prop := s.state = .busy → ∃ k < s.gridBytes, s.TraversedTo k

/-! ## Runs of the controller and end states -/

/-- `k` controller steps, stopping at the first stop. -/
def controllerSteps : Nat → State → StepOutcome
  | 0, s => .next s
  | k + 1, s =>
    match controllerStep s with
    | .next t => controllerSteps k t
    | .fault f => .fault f
    | .refused r => .refused r

/-- The command `i`, issued in `s`, is accepted, and as many controller steps as its grid has channels end in `u` (rule R95). -/
def RunsTo (i : Instr) (s u : State) : Prop :=
  ∃ t, exec i s = .next t ∧ t.state ≠ .error ∧ controllerSteps s.gridBytes t = .next u

/-- O when the channels of a list of addresses are processed one after another in that order (rule R91). -/
def State.writeInOrder (s : State) (m : Byte) : Memory → List Nat → Memory
  | o, [] => o
  | o, a :: rest => s.writeInOrder m (Memory.poke o a (s.channelOut m a)) rest

/-- Registers and flags as rules R82 and R83 leave them, OPL as rule R81 latches it (on an empty grid too: log entry 7), and
everything a command does not touch. -/
def CommandDone (s t : State) (op : Operation) : Prop :=
  t.state = .done ∧ t.err = .noError ∧ t.errinfo = 0 ∧ t.x = 0 ∧ t.y = 0 ∧ t.c = 0 ∧ t.opl = op ∧
  t.nsig = s.nsig ∧ t.aW = s.aW ∧ t.aH = s.aH ∧ t.bW = s.bW ∧ t.bH = s.bH ∧ t.memA = s.memA ∧ t.memB = s.memB ∧
  t.script = s.script ∧ t.log = s.log ∧ t.abandons = s.abandons

/-- The host keeps its duty of rule R42 with this step, taken in this state: while BUSY it writes no memory and reads no O. -/
def KeepsDuty (s : State) : HostOp → Bool
  | .fill _ _ _ => decide (s.state ≠ .busy)
  | .dump sp _ _ => decide (¬(s.state = .busy ∧ sp = .O))
  | .port _ _ _ _ _ => true
  | .wait => true

/-- While the traversal of `s` has not ended, every line the host takes is one the spec gives it in the state in which it is
taken (rules R42, R50). -/
def State.HostKeepsDuty (s : State) : Prop :=
  ∀ (k : Nat) (t : State), core.run k s = .next t → (∀ j ≤ k, ∀ u, core.run j s = .next u → u.state = .busy) →
    ∀ (op : HostOp) (rest : List ScriptLine), t.nextMove = .host op rest → op.wellFormed = true ∧ KeepsDuty t op = true

/-- Once the host has taken this line, no traversal runs that ran before it: WAIT (rule R60) and reset (rule R121). -/
def HostOp.endsTraversal : HostOp → Bool
  | .port rst _ _ _ _ => rst
  | .fill _ _ _ => false
  | .dump _ _ _ => false
  | .wait => true

/-- The lines a running traversal can still be running at: those before the first WAIT or reset. -/
def State.openLines (s : State) : List ScriptLine := s.script.takeWhile fun l => !l.op.endsTraversal

end Sys2Proof.Machine
end

