-- ==== Sys2Proof/Certificates/Slice0/Obligations.lean ====
section
/-! DEFINITION. The statements about LSBMS. Each cites the rule of spec/ it formalises. `hostStep (HostOp.wr r v)` is the host's
write of register r, `issueCommand v` what a write of v to CMD does, `exec i` what the command i does. -/

open Sys2Proof Sys2Proof.Machine

/-! ## Encodings -/

/-- R53: two command words, all 16 bits compared. -/
def Obligations.DecodeReadsTheTwoCommandWords : Prop :=
  decode 0b0000000000000001 = .ok .embed ∧ decode 0b0000000000000010 = .ok .extract ∧
  (∀ w : Word, w ≠ 0b0000000000000001 → w ≠ 0b0000000000000010 → decode w = .error (.reservedWord w))

/-- R52, R53: decode and encode agree, in both directions. -/
def Obligations.DecodeEncodeAgree : Prop :=
  (∀ i : Instr, i.wellFormed = true → decode (encode i) = .ok i) ∧ (∀ w i, decode w = .ok i → encode i = w)

/-- R51: the index map names each register once and leaves no index out. -/
def Obligations.RegisterIndexMapIsOneToOne : Prop :=
  (∀ r : Reg, Reg.ofIdx r.idx = r) ∧ (∀ i : RegIdx, (Reg.ofIdx i).idx = i) ∧
  Reg.ofIdx 0b000 = .nsig ∧ Reg.ofIdx 0b001 = .aW ∧ Reg.ofIdx 0b010 = .aH ∧ Reg.ofIdx 0b011 = .bW ∧
  Reg.ofIdx 0b100 = .bH ∧ Reg.ofIdx 0b101 = .cmd ∧ Reg.ofIdx 0b110 = .status ∧ Reg.ofIdx 0b111 = .errinfo

/-- R56, R57: the codes of STATE and ERR, and the six values STATUS takes. -/
def Obligations.StatusWordValues : Prop :=
  RunState.idle.code = 0b00 ∧ RunState.busy.code = 0b01 ∧ RunState.done.code = 0b10 ∧ RunState.error.code = 0b11 ∧
  ErrCode.noError.code = 0b00 ∧ ErrCode.invalidConfiguration.code = 0b01 ∧ ErrCode.dimensionMismatch.code = 0b10 ∧
  ErrCode.illegalCommand.code = 0b11 ∧
  (∀ s : State, s.statusWord.extractLsb' 0 2 = s.state.code ∧ s.statusWord.extractLsb' 2 2 = s.err.code ∧
    s.statusWord.extractLsb' 4 12 = 0) ∧
  (∀ s : State, s.RegisterInv →
    (s.state = .idle ∧ s.statusWord = 0x0000) ∨ (s.state = .busy ∧ s.statusWord = 0x0001) ∨
    (s.state = .done ∧ s.statusWord = 0x0002) ∨
    (s.state = .error ∧ s.err = .invalidConfiguration ∧ s.statusWord = 0x0007) ∨
    (s.state = .error ∧ s.err = .dimensionMismatch ∧ s.statusWord = 0x000B) ∨
    (s.state = .error ∧ s.err = .illegalCommand ∧ s.statusWord = 0x000F))

/-- R23: the level outputs mirror STATE, and so the two low bits of STATUS. -/
def Obligations.LevelOutputsMirrorState : Prop :=
  ∀ s : State, (s.busyOut = true ↔ s.state = .busy) ∧ (s.doneOut = true ↔ s.state = .done) ∧
    (s.errorOut = true ↔ s.state = .error) ∧
    s.busyOut = (s.statusWord.getLsbD 0 && !s.statusWord.getLsbD 1) ∧
    s.doneOut = (!s.statusWord.getLsbD 0 && s.statusWord.getLsbD 1) ∧
    s.errorOut = (s.statusWord.getLsbD 0 && s.statusWord.getLsbD 1)

/-! ## Steps -/

/-- R10, R14, R44: a CMD write whose word decodes to a command is, in its host step, `exec` of that command with the script's
line used up. The model's delay of a line (log entry 3) is spent before. -/
def Obligations.StepRunsTheDecodedCommand : Prop :=
  (∀ (s : State) (d : Nat) (v : Word) (rest : List ScriptLine) (i : Instr),
    s.script = ⟨d, HostOp.wr .cmd v⟩ :: rest → (s.state ≠ .busy ∨ d = 0) → decode v = .ok i → i.wellFormed = true →
    step s = exec i { s with script := rest }) ∧
  (∀ (s : State) (i : Instr), step (s.withFetchWord 16 (encode i).toNat) = exec i s)

/-- R10, R88: whose step it is. While BUSY the controller steps unless the host takes a line, and the controller's step is
always enabled. The delays and the WAIT rule are the model's reading of R128 and R60 (log entry 3). -/
def Obligations.EachStepIsOneAgentsStep : Prop :=
  (∀ (s : State) (l : ScriptLine) (rest : List ScriptLine), s.script = l :: rest →
    (s.state ≠ .busy ∨ (l.delay = 0 ∧ l.op ≠ .wait)) → step s = hostStep l.op { s with script := rest }) ∧
  (∀ s : State, s.state = .busy → (∀ l ∈ s.script.head?, l.delay ≠ 0 ∨ l.op = .wait) → step s = controllerStep s.tick) ∧
  (∀ s : State, s.state ≠ .busy → s.script = [] → step s = .next s)

/-! ## The register port -/

/-- R17: reads and writes of the eight registers, and the operands of a traversal stay while it runs. What a read returned stands
in the model's own `log` (log entry 4). -/
def Obligations.RegisterAccessRules : Prop :=
  (∀ (s : State) (r : Reg), hostStep (HostOp.rd r) s = .next (s.record (.reg r (s.readReg r)))) ∧
  (∀ s : State, s.readReg .nsig = s.nsig ∧ s.readReg .aW = s.aW ∧ s.readReg .aH = s.aH ∧ s.readReg .bW = s.bW ∧
    s.readReg .bH = s.bH ∧ s.readReg .cmd = 0x0000 ∧ s.readReg .status = s.statusWord ∧
    s.readReg .errinfo = s.errinfo) ∧
  (∀ (s : State) (v : Word), hostStep (HostOp.wr .status v) s = .next s ∧ hostStep (HostOp.wr .errinfo v) s = .next s) ∧
  (∀ (s : State) (v : Word), s.state ≠ .busy →
    hostStep (HostOp.wr .nsig v) s = .next { s with nsig := v } ∧
    hostStep (HostOp.wr .aW v) s = .next { s with aW := v } ∧
    hostStep (HostOp.wr .aH v) s = .next { s with aH := v } ∧
    hostStep (HostOp.wr .bW v) s = .next { s with bW := v } ∧
    hostStep (HostOp.wr .bH v) s = .next { s with bH := v } ∧
    hostStep (HostOp.wr .cmd v) s = issueCommand v s) ∧
  (∀ (s : State) (r : Reg) (v : Word), s.state = .busy → hostStep (HostOp.wr r v) s = .next s) ∧
  (∀ s t : State, s.state = .busy → step s = .next t → t.state = .busy →
    t.nsig = s.nsig ∧ t.aW = s.aW ∧ t.aH = s.aH ∧ t.bW = s.bW ∧ t.bH = s.bH ∧ t.opl = s.opl)

/-- R50: no strobe is no access, and the host has no step with both (U9): the model refuses it by name (log entry 9). -/
def Obligations.StrobesOfThePort : Prop :=
  ∀ (s : State) (i : RegIdx) (v : Word),
    hostStep (.port false false false i v) s = .next s ∧
    hostStep (.port false true true i v) s = .refused .bothStrobes ∧
    hostStep (.port false true false i v) s = writeReg (Reg.ofIdx i) v s ∧
    hostStep (.port false false true i v) s = .next (s.record (.reg (Reg.ofIdx i) (s.readReg (Reg.ofIdx i))))

/-! ## The datapath -/

/-- R63: the table of MASK and NMASK. -/
def Obligations.MaskTable : Prop :=
  mask? 1 = some 0b00000001 ∧ nmask? 1 = some 0b11111110 ∧ mask? 2 = some 0b00000011 ∧ nmask? 2 = some 0b11111100 ∧
  mask? 3 = some 0b00000111 ∧ nmask? 3 = some 0b11111000 ∧ mask? 4 = some 0b00001111 ∧ nmask? 4 = some 0b11110000 ∧
  mask? 5 = some 0b00011111 ∧ nmask? 5 = some 0b11100000 ∧ mask? 6 = some 0b00111111 ∧ nmask? 6 = some 0b11000000 ∧
  mask? 7 = some 0b01111111 ∧ nmask? 7 = some 0b10000000 ∧ mask? 8 = some 0b11111111 ∧ nmask? 8 = some 0b00000000 ∧
  (∀ n m, mask? n = some m → m.toNat = 2 ^ n - 1 ∧ nmask? n = some (255 - m))

/-- R61, R62, R64: MASK(n) is the n low bits and NMASK(n) the others, for 1 ≤ n ≤ 8 and no other n. -/
def Obligations.MaskSelectsTheLowBits : Prop :=
  (∀ n, 1 ≤ n → n ≤ 8 → ∃ m nm, mask? n = some m ∧ nmask? n = some nm ∧ m.toNat = (1 <<< n) - 1 ∧
    (∀ i, i < 8 → m.getLsbD i = decide (i < n)) ∧ (∀ i, i < 8 → nm.getLsbD i = decide (n ≤ i)) ∧
    nm = 255 - m ∧ nm = ~~~m ∧ nm.toNat = 255 - m.toNat ∧ (~~~(m.setWidth 32)).setWidth 8 = nm) ∧
  (∀ n, n < 1 ∨ 8 < n → mask? n = none ∧ nmask? n = none)

/-- R71: what the merge guarantees. -/
def Obligations.MergeKeepsHighTakesLow : Prop :=
  ∀ (n : Nat) (m nm h p : Byte), mask? n = some m → nmask? n = some nm →
    embedCh h p m &&& nm = h &&& nm ∧ embedCh h p m &&& m = p &&& m

/-- R72: the merge bit by bit, as a slice, and with disjoint terms. -/
def Obligations.MergeIsAPerBitMux : Prop :=
  ∀ (n : Nat) (m nm h p : Byte), mask? n = some m → nmask? n = some nm →
    (∀ i, i < 8 → (embedCh h p m).getLsbD i = if i < n then p.getLsbD i else h.getLsbD i) ∧
    (∀ i, i < 8 → (embedCh h p m).getLsbD i = if m.getLsbD i then p.getLsbD i else h.getLsbD i) ∧
    (embedCh h p m).toNat = h.toNat / 2 ^ n * 2 ^ n + p.toNat % 2 ^ n ∧
    m &&& nm = 0 ∧ (h &&& nm) &&& (p &&& m) = 0 ∧
    embedCh h p m = (h &&& nm) + (p &&& m) ∧ embedCh h p m = (h &&& nm) ^^^ (p &&& m)

/-- R73: the corner cases of the merge. -/
def Obligations.MergeCornerCases : Prop :=
  (∀ h p : Byte, embedCh h p 0xFF = p) ∧
  (∀ h p : Byte, embedCh h p 0x01 = (h &&& 0xFE) ||| (p &&& 1)) ∧
  (∀ (n : Nat) (m nm h : Byte), mask? n = some m → nmask? n = some nm →
    embedCh h h m = h ∧ embedCh h 0 m = h &&& nm ∧ embedCh h 0xFF m = h ||| m) ∧
  (∀ (n : Nat) (m h p q : Byte), mask? n = some m → (∀ i, i < n → p.getLsbD i = q.getLsbD i) →
    embedCh h p m = embedCh h q m)

/-- R74, R75: the split keeps the low n bits in place, without a shift. -/
def Obligations.SplitKeepsTheLowBitsInPlace : Prop :=
  ∀ (n : Nat) (m s : Byte), mask? n = some m →
    extractCh s m = s &&& m ∧
    (∀ i, i < 8 → (extractCh s m).getLsbD i = (decide (i < n) && s.getLsbD i)) ∧
    (extractCh s m).toNat = s.toNat % 2 ^ n ∧ extractCh s m = embedCh 0 s m ∧
    (n = 8 → extractCh s m = s) ∧ (n = 1 → extractCh s m = 0 ∨ extractCh s m = 1) ∧
    (extractCh s m).toNat ≤ 2 ^ n - 1

/-- R76: extract recovers the embedded low bits exactly, and the payload itself only where it fits n bits. -/
def Obligations.SplitOfMergeIsThePayloadsLowBits : Prop :=
  ∀ (n : Nat) (m h p : Byte), mask? n = some m →
    extractCh (embedCh h p m) m = p &&& m ∧
    (extractCh (embedCh h p m) m = p ↔ p.toNat < 2 ^ n) ∧ (n = 8 → extractCh (embedCh h p m) m = p)

/-! ## Addresses and memories -/

/-- R35: addresses are exact and never wrap. -/
def Obligations.AddressesNeverWrap : Prop :=
  (∀ x y c w h : Nat, w ≤ 65535 → h ≤ 65535 → x < w → y < h → c ≤ 2 →
    idx x y c w ≤ 3 * w * h - 1 ∧ 3 * w * h - 1 ≤ 12884508674) ∧
  12884508674 < 2 ^ 34 ∧ idx 65534 65534 2 65535 = 12884508674 ∧ (∀ s : State, s.addr < 2 ^ 34)

/-- R38, R46: a read returns the byte last written at the address, a write changes no other address, and a byte nothing has
written reads as its free value. -/
def Obligations.MemoryReadsWhatWasWritten : Prop :=
  ∀ (sp : Space) (m : Memory) (a b : Nat) (v : Byte),
    Memory.readByte sp (Memory.poke m a v) a = v ∧
    (b ≠ a → Memory.readByte sp (Memory.poke m a v) b = Memory.readByte sp m b) ∧
    (Memory.peek? m b = none → Memory.readByte sp m b = Config.powerUpByte sp b)

/-- The model's canonical form (log entry 1): canonical memories that hold the same written bytes are equal data, and a write
keeps the form. -/
def Obligations.CanonicalMemoriesAreEqualData : Prop :=
  (∀ m m' : Memory, Memory.wf m = true → Memory.wf m' = true → (∀ a, Memory.peek? m a = Memory.peek? m' a) → m = m') ∧
  (∀ (m : Memory) (a : Nat) (v : Byte), Memory.wf m = true → a < 2 ^ 34 → Memory.wf (Memory.poke m a v) = true)

/-- R21, R59: FILL, while not BUSY, stores its bytes at ascending addresses of its space and changes nothing else. That it
is one step, and allowed on O too, is the model's reading (log entry 10). -/
def Obligations.FillStoresItsBytes : Prop :=
  ∀ (s : State) (sp : Space) (a : Nat) (bs : List Byte), s.state ≠ .busy → a + bs.length ≤ 2 ^ 34 →
    ∃ m, hostStep (.fill sp a bs) s = .next (s.setMem m sp) ∧
      (∀ i (h : i < bs.length), (s.setMem m sp).read sp (a + i) = bs[i]) ∧
      (∀ (sp' : Space) (b : Nat), (sp' ≠ sp ∨ b < a ∨ a + bs.length ≤ b) → (s.setMem m sp).read sp' b = s.read sp' b)

/-- R21, R59: DUMP returns the bytes of the space and changes nothing but what the host has read (log entries 4, 10). -/
def Obligations.DumpReturnsTheBytes : Prop :=
  ∀ (s : State) (sp : Space) (a n : Nat), (s.state ≠ .busy ∨ sp ≠ .O) → a + n ≤ 2 ^ 34 →
    ∃ bs : List Byte, hostStep (.dump sp a n) s = .next { s with log := s.log ++ [.bytes sp a bs] } ∧
      bs.length = n ∧ ∀ i, i < n → bs[i]? = some (s.read sp (a + i))

/-- R42 (U4): while BUSY the host has no write of a memory and no read of O: the model refuses them by name (log entry 8). -/
def Obligations.HostMayNotTouchBusyMemories : Prop :=
  (∀ (s : State) (sp : Space) (a : Nat) (bs : List Byte), s.state = .busy →
    hostStep (.fill sp a bs) s = .refused .hostTouchesBusyMemory) ∧
  (∀ (s : State) (a n : Nat), s.state = .busy → hostStep (.dump .O a n) s = .refused .hostTouchesBusyMemory)

/-- R60: WAIT ends with the STATUS it reads once the block is not BUSY; before that the controller steps and WAIT stays. That the
polls that find BUSY are no steps is the model's choice (log entry 3). -/
def Obligations.WaitEndsWithStatus : Prop :=
  (∀ (s : State) (d : Nat) (rest : List ScriptLine), s.script = ⟨d, .wait⟩ :: rest → s.state ≠ .busy →
    step s = .next { s with script := rest, log := s.log ++ [.reg .status s.statusWord] }) ∧
  (∀ (s : State) (d : Nat) (rest : List ScriptLine), s.script = ⟨d, .wait⟩ :: rest → s.state = .busy →
    step s = controllerStep { s with script := ⟨d - 1, .wait⟩ :: rest })

/-! ## Command acceptance and errors -/

/-- R81: command acceptance, in its order, and nothing while BUSY. What the model's own field `oldO` holds (log entry 2) is left
open. -/
def Obligations.CommandAcceptance : Prop :=
  ∀ (s : State) (v : Word), ∃ saved : Memory,
    hostStep (HostOp.wr .cmd v) s = .next (
      if s.state = .busy then s
      else if v ≠ 0x0001 ∧ v ≠ 0x0002 then
        { s with state := .error, err := .illegalCommand, errinfo := v, x := 0, y := 0, c := 0 }
      else if s.nsig.toNat < 1 ∨ s.nsig.toNat > 8 then
        { s with state := .error, err := .invalidConfiguration, errinfo := s.nsig, x := 0, y := 0, c := 0 }
      else if v = 0x0001 ∧ (s.aW ≠ s.bW ∨ s.aH ≠ s.bH) then
        { s with state := .error, err := .dimensionMismatch, errinfo := 0x0000, x := 0, y := 0, c := 0 }
      else if s.aW = 0 ∨ s.aH = 0 then
        { s with state := .done, err := .noError, errinfo := 0x0000, x := 0, y := 0, c := 0,
                 opl := if v = 0x0002 then .extract else .embed }
      else
        { s with state := .busy, err := .noError, errinfo := 0x0000, x := 0, y := 0, c := 0,
                 opl := if v = 0x0002 then .extract else .embed, oldO := saved })

/-- R81, R82: EMBED is accepted exactly so when its checks pass on a grid that is not empty. `oldO` is the model's copy of O for
rule R122 (log entry 2). -/
def Obligations.EmbedStartsItsTraversal : Prop :=
  ∀ s : State, s.state ≠ .busy → 1 ≤ s.nsig.toNat → s.nsig.toNat ≤ 8 → s.aW = s.bW → s.aH = s.bH → s.aW ≠ 0 → s.aH ≠ 0 →
    exec .embed s = .next { s with state := .busy, err := .noError, errinfo := 0, opl := .embed, x := 0, y := 0, c := 0,
                                   oldO := s.memO }

/-- R81, R83: EXTRACT is accepted exactly so when N is legal, whatever B_W and B_H hold. `oldO` is the model's copy of O for rule
R122 (log entry 2). -/
def Obligations.ExtractStartsItsTraversal : Prop :=
  ∀ s : State, s.state ≠ .busy → 1 ≤ s.nsig.toNat → s.nsig.toNat ≤ 8 → s.aW ≠ 0 → s.aH ≠ 0 →
    exec .extract s = .next { s with state := .busy, err := .noError, errinfo := 0, opl := .extract, x := 0, y := 0, c := 0,
                                     oldO := s.memO }

/-- R81, R82: EMBED, from its acceptance through its `3*W*H` controller steps; where a check fails, O is unchanged. That OPL is
latched on an empty grid too is the model's reading of R81 against R18 (log entry 7). -/
def Obligations.EmbedHidesThePayload : Prop :=
  (∀ s : State, s.state ≠ .busy → 1 ≤ s.nsig.toNat → s.nsig.toNat ≤ 8 → s.aW = s.bW → s.aH = s.bH →
    ∃ m t u, mask? s.nsig.toNat = some m ∧ exec .embed s = .next t ∧
      controllerSteps (3 * s.aW.toNat * s.aH.toNat) t = .next u ∧ CommandDone s u .embed ∧
      (∀ x y c, x < s.aW.toNat → y < s.aH.toNat → c ≤ 2 →
        u.read .O (idx x y c s.aW.toNat) =
          (s.read .A (idx x y c s.aW.toNat) &&& (255 - m)) ||| (s.read .B (idx x y c s.aW.toNat) &&& m)) ∧
      (∀ a, 3 * s.aW.toNat * s.aH.toNat ≤ a → u.read .O a = s.read .O a) ∧
      (∀ a, u.read .A a = s.read .A a ∧ u.read .B a = s.read .B a)) ∧
  (∀ s : State, s.state ≠ .busy →
    (s.nsig.toNat < 1 ∨ 8 < s.nsig.toNat ∨ s.aW ≠ s.bW ∨ s.aH ≠ s.bH) →
    ∃ t, exec .embed s = .next t ∧ t.state = .error ∧
      t.err = (if s.nsig.toNat < 1 ∨ 8 < s.nsig.toNat then .invalidConfiguration else .dimensionMismatch) ∧
      ∀ a, t.read .O a = s.read .O a)

/-- R81, R83: EXTRACT, from its acceptance through its `3*W*H` controller steps; its only error is InvalidConfiguration. That OPL
is latched on an empty grid too is the model's reading of R81 against R18 (log entry 7). -/
def Obligations.ExtractRecoversTheLowBits : Prop :=
  (∀ s : State, s.state ≠ .busy → 1 ≤ s.nsig.toNat → s.nsig.toNat ≤ 8 →
    ∃ m t u, mask? s.nsig.toNat = some m ∧ exec .extract s = .next t ∧
      controllerSteps (3 * s.aW.toNat * s.aH.toNat) t = .next u ∧ CommandDone s u .extract ∧
      (∀ x y c, x < s.aW.toNat → y < s.aH.toNat → c ≤ 2 →
        u.read .O (idx x y c s.aW.toNat) = s.read .A (idx x y c s.aW.toNat) &&& m) ∧
      (∀ a, 3 * s.aW.toNat * s.aH.toNat ≤ a → u.read .O a = s.read .O a) ∧
      (∀ a, u.read .A a = s.read .A a ∧ u.read .B a = s.read .B a)) ∧
  (∀ s : State, s.state ≠ .busy → (s.nsig.toNat < 1 ∨ 8 < s.nsig.toNat) →
    ∃ t, exec .extract s = .next t ∧ t.state = .error ∧ t.err = .invalidConfiguration ∧
      ∀ a, t.read .O a = s.read .O a)

/-- R101: N outside 1..8 is rejected at the command, by both commands, with the value of NSIG. -/
def Obligations.InvalidConfigurationIsRaised : Prop :=
  (∀ (s : State) (i : Instr), s.state ≠ .busy → (s.nsig.toNat = 0 ∨ 9 ≤ s.nsig.toNat) →
    exec i s = .next { s with state := .error, err := .invalidConfiguration, errinfo := s.nsig, x := 0, y := 0, c := 0 }) ∧
  (∀ (s : State) (v : Word), s.state ≠ .busy → hostStep (HostOp.wr .nsig v) s = .next { s with nsig := v })

/-- R102: EMBED of grids that differ in width or height; never raised by EXTRACT. -/
def Obligations.DimensionMismatchIsRaised : Prop :=
  (∀ s : State, s.state ≠ .busy → 1 ≤ s.nsig.toNat → s.nsig.toNat ≤ 8 → (s.aW ≠ s.bW ∨ s.aH ≠ s.bH) →
    exec .embed s = .next { s with state := .error, err := .dimensionMismatch, errinfo := 0, x := 0, y := 0, c := 0 }) ∧
  (∀ s t : State, s.state ≠ .busy → exec .embed s = .next t → t.err = .dimensionMismatch → s.aW ≠ s.bW ∨ s.aH ≠ s.bH) ∧
  (∀ s t : State, s.state ≠ .busy → exec .extract s = .next t → t.err ≠ .dimensionMismatch)

/-- R54, R103: every reserved word raises IllegalCommand with the word, and accesses no memory. -/
def Obligations.IllegalCommandIsRaised : Prop :=
  ∀ (s : State) (v : Word), s.state ≠ .busy → v ≠ 0x0001 → v ≠ 0x0002 →
    hostStep (HostOp.wr .cmd v) s =
      .next { s with state := .error, err := .illegalCommand, errinfo := v, x := 0, y := 0, c := 0 }

/-- R106: one error is reported, IllegalCommand before InvalidConfiguration before DimensionMismatch. -/
def Obligations.ErrorPriority : Prop :=
  ∀ (s t : State) (v : Word), s.state ≠ .busy → issueCommand v s = .next t →
    (v ≠ 0x0001 ∧ v ≠ 0x0002 → t.err = .illegalCommand ∧ t.errinfo = v) ∧
    (v = 0x0001 ∨ v = 0x0002 → (s.nsig.toNat < 1 ∨ 8 < s.nsig.toNat) →
      t.err = .invalidConfiguration ∧ t.errinfo = s.nsig) ∧
    (v = 0x0001 → 1 ≤ s.nsig.toNat → s.nsig.toNat ≤ 8 → (s.aW ≠ s.bW ∨ s.aH ≠ s.bH) →
      t.err = .dimensionMismatch ∧ t.errinfo = 0)

/-- R107: what raising an error does, all in the acceptance step. -/
def Obligations.ErrorEntryWritesNothingElse : Prop :=
  ∀ (s t : State) (v : Word), s.state ≠ .busy → issueCommand v s = .next t → t.state = .error →
    (∃ e info, e ≠ .noError ∧ t = { s with state := .error, err := e, errinfo := info, x := 0, y := 0, c := 0 } ∧
      (e = .invalidConfiguration → info = s.nsig) ∧ (e = .illegalCommand → info = v) ∧
      (e = .dimensionMismatch → info = 0)) ∧
    t.opl = s.opl ∧ (∀ r, r ≠ .status → r ≠ .errinfo → t.readReg r = s.readReg r) ∧
    (∀ (sp : Space) (a : Nat), t.read sp a = s.read sp a)

/-- R39, R108: acceptance, of a failed command too, writes no memory and reads none: with other contents of the memories it
answers the same registers and leaves those contents. -/
def Obligations.AcceptanceReadsNoMemory : Prop :=
  ∀ (s t : State) (v : Word) (a b o : Memory), issueCommand v s = .next t →
    ∃ t', issueCommand v { s with memA := a, memB := b, memO := o } = .next t' ∧
      t'.memA = a ∧ t'.memB = b ∧ t'.memO = o ∧
      t'.state = t.state ∧ t'.err = t.err ∧ t'.errinfo = t.errinfo ∧ t'.opl = t.opl ∧ t'.x = t.x ∧ t'.y = t.y ∧ t'.c = t.c ∧
      t'.nsig = t.nsig ∧ t'.aW = t.aW ∧ t'.aH = t.aH ∧ t'.bW = t.bW ∧ t'.bH = t.bH

/-- R14: CMD is a trigger: a write while not BUSY issues the command in that step, a read returns 0x0000, and a write while BUSY
is ignored, whatever the word. -/
def Obligations.CmdIsATriggerIgnoredWhileBusy : Prop :=
  (∀ (s : State) (v : Word), s.state ≠ .busy → hostStep (HostOp.wr .cmd v) s = issueCommand v s) ∧
  (∀ (s : State) (i : Instr), issueCommand (encode i) s = exec i s) ∧
  (∀ s : State, hostStep (HostOp.rd .cmd) s = .next (s.record (.reg .cmd 0x0000))) ∧
  (∀ (v : Word) (s : State), s.state = .busy → hostStep (HostOp.wr .cmd v) s = .next s) ∧
  (∀ (i : Instr) (s : State), s.state = .busy → exec i s = .next s)

/-- R114: the host's next read of STATUS shows the error of the CMD write before it. -/
def Obligations.TheNextReadShowsTheError : Prop :=
  ∀ (s t : State) (v : Word), s.state ≠ .busy → hostStep (HostOp.wr .cmd v) s = .next t → t.state = .error →
    ∃ w, hostStep (HostOp.rd .status) t = .next (t.record (.reg .status w)) ∧
      ((t.err = .invalidConfiguration ∧ w = 0x0007) ∨ (t.err = .dimensionMismatch ∧ w = 0x000B) ∨
        (t.err = .illegalCommand ∧ w = 0x000F))

/-- R16: ERRINFO is written only by command acceptance (and by reset, with 0), with the offending value. -/
def Obligations.ErrinfoHoldsTheOffendingValue : Prop :=
  (∀ (s t : State) (v : Word), s.state ≠ .busy → issueCommand v s = .next t →
    (t.err = .invalidConfiguration ∧ t.errinfo = s.nsig) ∨ (t.err = .illegalCommand ∧ t.errinfo = v) ∨
    (t.err = .dimensionMismatch ∧ t.errinfo = 0x0000) ∨ (t.err = .noError ∧ t.errinfo = 0x0000)) ∧
  (∀ s t : State, step s = .next t → t.errinfo ≠ s.errinfo →
    (s.state ≠ .busy ∧ ∃ d i v rest, s.script = ⟨d, .port false true false i v⟩ :: rest ∧ Reg.ofIdx i = .cmd) ∨
    (t.errinfo = 0 ∧ ∃ d we re i v rest, s.script = ⟨d, .port true we re i v⟩ :: rest))

/-- R105, R110: an error is raised only by a CMD write while not BUSY; never while BUSY, by the controller or by the host. -/
def Obligations.ErrorsAreRaisedOnlyAtAcceptance : Prop :=
  (∀ s t : State, s.state = .busy → step s = .next t → t.state ≠ .error ∧ (t.err = s.err ∨ t.err = .noError)) ∧
  (∀ s t : State, step s = .next t → t.state = .error → (s.state ≠ .error ∨ t.err ≠ s.err) →
    s.state ≠ .busy ∧ ∃ d i v rest, s.script = ⟨d, .port false true false i v⟩ :: rest ∧ Reg.ofIdx i = .cmd)

/-- R15, R109: STATUS and ERRINFO change only by a command word taken while not BUSY, by reset, or by a controller step. -/
def Obligations.StatusChangesOnlyByCommandResetOrController : Prop :=
  ∀ s t : State, step s = .next t → (t.state ≠ s.state ∨ t.err ≠ s.err ∨ t.errinfo ≠ s.errinfo) →
    (s.state ≠ .busy ∧ ∃ d i v rest, s.script = ⟨d, .port false true false i v⟩ :: rest ∧ Reg.ofIdx i = .cmd) ∨
    (∃ d we re i v rest, s.script = ⟨d, .port true we re i v⟩ :: rest) ∨
    (s.state = .busy ∧ s.LastChannel ∧ t.state = .done ∧ t.err = s.err ∧ t.errinfo = s.errinfo)

/-- R109: ERROR is an idle state in which the configuration can be rewritten, an error stays until the next CMD write or reset, the next command is judged as if the failed one had never been
issued, and the same command again gives the same error. -/
def Obligations.ErrorsStayAndLeaveNoTrace : Prop :=
  (∀ s t : State, s.state = .error → step s = .next t →
    (t.state = .error ∧ t.err = s.err ∧ t.errinfo = s.errinfo) ∨
    (∃ d i v rest, s.script = ⟨d, .port false true false i v⟩ :: rest ∧ Reg.ofIdx i = .cmd) ∨
    (∃ d we re i v rest, s.script = ⟨d, .port true we re i v⟩ :: rest)) ∧
  (∀ (s t : State) (v : Word), s.state ≠ .busy → issueCommand v s = .next t → t.state = .error →
    (∀ w, issueCommand w t = issueCommand w s) ∧ issueCommand v t = .next t) ∧
  (∀ (s : State) (v : Word), s.state = .error →
    hostStep (HostOp.wr .nsig v) s = .next { s with nsig := v } ∧ hostStep (HostOp.wr .aW v) s = .next { s with aW := v } ∧
    hostStep (HostOp.wr .aH v) s = .next { s with aH := v } ∧ hostStep (HostOp.wr .bW v) s = .next { s with bW := v } ∧
    hostStep (HostOp.wr .bH v) s = .next { s with bH := v })

/-- R22: the outcome of a command depends only on the command, the configuration and the bytes of A and B in the grid. -/
def Obligations.OutcomeDependsOnlyOnInputs : Prop :=
  ∀ (i : Instr) (s s' : State), s.state ≠ .busy → s'.state ≠ .busy → s.nsig = s'.nsig → s.aW = s'.aW → s.aH = s'.aH →
    s.bW = s'.bW → s.bH = s'.bH →
    (∀ a, a < s.gridBytes → s.read .A a = s'.read .A a ∧ s.read .B a = s'.read .B a) →
    ∃ t t', exec i s = .next t ∧ exec i s' = .next t' ∧
      t.state = t'.state ∧ t.err = t'.err ∧ t.errinfo = t'.errinfo ∧ t.x = t'.x ∧ t.y = t'.y ∧ t.c = t'.c ∧
      (t.state ≠ .error → ∃ u u', controllerSteps s.gridBytes t = .next u ∧ controllerSteps s.gridBytes t' = .next u' ∧
        u.state = .done ∧ u'.state = .done ∧ ∀ a, a < s.gridBytes → u.read .O a = u'.read .O a)

/-- R81, R89: an empty grid is DONE at once, with no memory access; EMBED's dimension check still comes first. That OPL is latched
is the model's reading of R81 against R18 (log entry 7). -/
def Obligations.EmptyGridIsDoneAtOnce : Prop :=
  (∀ s : State, s.state ≠ .busy → 1 ≤ s.nsig.toNat → s.nsig.toNat ≤ 8 → (s.aW = 0 ∨ s.aH = 0) →
    exec .extract s = .next { s with state := .done, err := .noError, errinfo := 0, opl := .extract, x := 0, y := 0, c := 0 } ∧
    (s.aW = s.bW → s.aH = s.bH →
      exec .embed s = .next { s with state := .done, err := .noError, errinfo := 0, opl := .embed, x := 0, y := 0, c := 0 }) ∧
    (s.aW ≠ s.bW ∨ s.aH ≠ s.bH →
      exec .embed s = .next { s with state := .error, err := .dimensionMismatch, errinfo := 0, x := 0, y := 0, c := 0 }))

/-! ## The controller -/

/-- R84, R85: the controller steps only while BUSY, and one step of it. What the model's own field `oldO` holds after the last step
(log entry 2) is left open. In states that R25 excludes, with a zero dimension or C = 3, the comparisons are the model's choice
(log entry 16). -/
def Obligations.ControllerStepEffect : Prop :=
  (∀ s : State, s.state ≠ .busy → s.nextMove ≠ .controller) ∧ (∀ s : State, s.state = .busy → s.script = [] →
    step s = controllerStep s) ∧
  ∀ (s : State) (m : Byte), s.state = .busy → mask? s.nsig.toNat = some m →
    ∃ (o : Byte) (saved : Memory),
      o = (match s.opl with
        | .embed => (s.read .A ((s.y.toNat * s.aW.toNat + s.x.toNat) * 3 + s.c.toNat) &&& (255 - m)) |||
            (s.read .B ((s.y.toNat * s.aW.toNat + s.x.toNat) * 3 + s.c.toNat) &&& m)
        | .extract => s.read .A ((s.y.toNat * s.aW.toNat + s.x.toNat) * 3 + s.c.toNat) &&& m) ∧
      controllerStep s = .next (
        let w := { s with memO := Memory.poke s.memO ((s.y.toNat * s.aW.toNat + s.x.toNat) * 3 + s.c.toNat) o }
        if s.x.toNat + 1 = s.aW.toNat ∧ s.y.toNat + 1 = s.aH.toNat ∧ s.c = 2 then
          { w with x := 0, y := 0, c := 0, state := .done, oldO := saved }
        else if s.c.toNat < 2 then { w with c := s.c + 1 }
        else if s.y.toNat + 1 < s.aH.toNat then { w with y := s.y + 1, c := 0 }
        else { w with x := s.x + 1, y := 0, c := 0 })

/-- R92: what commands and controller steps leave unchanged. The address stored to is `s.addr`, the one the meaning uses. -/
def Obligations.CommandsChangeNothingElse : Prop :=
  (∀ (i : Instr) (s t : State), exec i s = .next t →
    t.nsig = s.nsig ∧ t.aW = s.aW ∧ t.aH = s.aH ∧ t.bW = s.bW ∧ t.bH = s.bH ∧
    t.abandons = s.abandons ∧ t.script = s.script ∧ t.log = s.log ∧ (∀ sp a, t.read sp a = s.read sp a)) ∧
  (∀ s t : State, controllerStep s = .next t →
    t.nsig = s.nsig ∧ t.aW = s.aW ∧ t.aH = s.aH ∧ t.bW = s.bW ∧ t.bH = s.bH ∧
    t.err = s.err ∧ t.errinfo = s.errinfo ∧ t.opl = s.opl ∧ t.abandons = s.abandons ∧ t.script = s.script ∧ t.log = s.log ∧
    (∀ a, t.read .A a = s.read .A a ∧ t.read .B a = s.read .B a) ∧
    (∀ a, a ≠ s.addr → t.read .O a = s.read .O a)) ∧
  (∀ s : State, s.RegisterInv → s.state = .busy → s.addr < 3 * s.aW.toNat * s.aH.toNat)

/-- R86: the order of a traversal, as the controller steps it from acceptance, and that it visits every address once. -/
def Obligations.TraversalOrder : Prop :=
  (∀ (i : Instr) (s t : State), s.state ≠ .busy → exec i s = .next t → t.state = .busy →
    ∀ k, k < 3 * s.aW.toNat * s.aH.toNat → ∃ u, controllerSteps k t = .next u ∧ u.state = .busy ∧
      u.c.toNat = k % 3 ∧ u.y.toNat = k / 3 % s.aH.toNat ∧ u.x.toNat = k / (3 * s.aH.toNat) ∧
      u.addr = addrAt s.aW.toNat s.aH.toNat k) ∧
  (∀ w h k, k < 3 * w * h → addrAt w h k < 3 * w * h ∧
    addrAt w h k = (k / 3 % h * w + k / (3 * h)) * 3 + k % 3) ∧
  (∀ w h a, a < 3 * w * h → ∃! k, k < 3 * w * h ∧ addrAt w h k = a) ∧
  (List.range 12).map (addrAt 2 2) = [0, 1, 2, 6, 7, 8, 3, 4, 5, 9, 10, 11]

/-- R88: an accepted command takes exactly `3*W*H` controller steps, the last of which sets DONE. -/
def Obligations.TraversalTakesItsSteps : Prop :=
  ∀ (i : Instr) (s t : State), s.state ≠ .busy → exec i s = .next t → t.state = .busy →
    (∀ k, k < 3 * s.aW.toNat * s.aH.toNat → ∃ u, controllerSteps k t = .next u ∧ u.state = .busy) ∧
    ∃ u, controllerSteps (3 * s.aW.toNat * s.aH.toNat) t = .next u ∧ u.state = .done

/-- R88, R128, R129: whatever the host does that the spec gives it, a running traversal ends, by DONE or by reset. First for a
host that keeps its duty in the state in which it takes each line, as long as the traversal runs; then for every script whose
lines before the first WAIT or reset keep it, whatever comes after (programs P1 to P5). The bound on the steps counts the host's
lines as the model does: a poll of WAIT that finds BUSY is no step, and a step of the model is at most one line (log entry 3). -/
def Obligations.EveryTraversalEnds : Prop :=
  (∀ s : State, s.RegisterInv → s.Progress → s.state = .busy → s.HostKeepsDuty →
    ∃ (k : Nat) (t : State), k ≤ s.gridBytes + s.script.length ∧ core.run k s = .next t ∧
      (t.state = .done ∨ t.state = .idle)) ∧
  (∀ s : State, s.RegisterInv → s.Progress → s.state = .busy →
    (∀ l ∈ s.openLines, l.op.wellFormed = true ∧ KeepsDuty s l.op = true) →
    ∃ (k : Nat) (t : State), k ≤ s.gridBytes + s.script.length ∧ core.run k s = .next t ∧
      (t.state = .done ∨ t.state = .idle))

/-- R90: the byte an accepted command leaves at an address of the grid depends only on N and on the bytes of A, and for EMBED of
B, at that address: not on the grid's dimensions, nor on any other byte. -/
def Obligations.ChannelsAreIndependent : Prop :=
  ∀ (i : Instr) (s s' u u' : State) (a : Nat), s.state ≠ .busy → s'.state ≠ .busy → RunsTo i s u → RunsTo i s' u' →
    s.nsig = s'.nsig → a < s.gridBytes → a < s'.gridBytes →
    s.read .A a = s'.read .A a → (i = .embed → s.read .B a = s'.read .B a) → u.read .O a = u'.read .O a

/-- R91: processing the channels in any order leaves the same O as the controller's own order. -/
def Obligations.OrderDoesNotMatter : Prop :=
  ∀ (i : Instr) (s t u : State) (m : Byte) (order : List Nat), s.state ≠ .busy → s.MemoryInv → exec i s = .next t →
    t.state = .busy → mask? s.nsig.toNat = some m → controllerSteps s.gridBytes t = .next u →
    order.Perm (List.range s.gridBytes) → t.writeInOrder m s.memO order = u.memO

/-- R93: EXTRACT neither reads nor checks the second input. -/
def Obligations.ExtractIgnoresTheSecondInput : Prop :=
  ∀ (s t : State) (w h : Word) (b : Memory), s.state ≠ .busy → exec .extract s = .next t →
    exec .extract { s with bW := w, bH := h, memB := b } = .next { t with bW := w, bH := h, memB := b } ∧
    (t.state = .busy → ∀ k u, controllerSteps k t = .next u →
      controllerSteps k { t with bW := w, bH := h, memB := b } = .next { u with bW := w, bH := h, memB := b })

/-- R41, R82, R83: the step that sets DONE leaves the whole result in O, however host and controller steps were interleaved. -/
def Obligations.DoneMeansTheWholeResult : Prop :=
  ∀ s t : State, s.RegisterInv → s.Progress → s.state = .busy → step s = .next t → t.state = .done →
    (∃ m, mask? s.nsig.toNat = some m ∧ ∀ a, a < s.gridBytes → t.read .O a = s.channelOut m a) ∧
    (∀ a, s.gridBytes ≤ a → t.read .O a = Memory.readByte .O s.oldO a) ∧
    t.err = .noError ∧ t.x = 0 ∧ t.y = 0 ∧ t.c = 0

/-! ## Reset -/

/-- R24: every element of state inside the block, in the reset state and after a step with rst = 1; A and B, and O of a block
that is not BUSY, keep their bytes (O of a BUSY block: rule R122). -/
def Obligations.ResetValues : Prop :=
  (∀ s : State, (s = State.reset ∨ ∃ s₀ : State, s = s₀.assertReset) →
    s.nsig = 0x0001 ∧ s.aW = 0 ∧ s.aH = 0 ∧ s.bW = 0 ∧ s.bH = 0 ∧ s.state = .idle ∧ s.err = .noError ∧ s.errinfo = 0 ∧
    s.opl = .embed ∧ s.x = 0 ∧ s.y = 0 ∧ s.c = 0 ∧ s.statusWord = 0x0000 ∧
    s.busyOut = false ∧ s.doneOut = false ∧ s.errorOut = false) ∧
  (∀ (s : State) (a : Nat), s.assertReset.read .A a = s.read .A a ∧ s.assertReset.read .B a = s.read .B a ∧
    (s.state ≠ .busy → s.assertReset.read .O a = s.read .O a)) ∧
  (∀ (sp : Space) (a : Nat), State.reset.read sp a = Config.powerUpByte sp a)

/-- R113, R121: reset has priority: in a step with rst = 1 any register access presented is ignored, and the block is in the
same state whatever it was doing before. -/
def Obligations.ResetOverridesAnyAccess : Prop :=
  (∀ (s : State) (we re : Bool) (i : RegIdx) (v : Word),
    hostStep (.port true we re i v) s = .next s.assertReset ∧
    hostStep (.port true we re i v) s = hostStep HostOp.resetLine s) ∧
  (∀ s : State, { s.assertReset with memA := [], memB := [], memO := [], abandons := 0, script := [], log := [] }
    = State.reset)

/-- R122: reset during a traversal: each byte of the grid in O holds its old value or the value the completed command would
have given it, the others are as before, and STATUS reads IDLE. -/
def Obligations.ResetCutsATraversalShort : Prop :=
  ∀ (s : State) (m : Byte), s.state = .busy → s.RegisterInv → s.MemoryInv → s.Progress → mask? s.nsig.toNat = some m →
    (∀ a, a < s.gridBytes → s.assertReset.read .O a = s.channelOut m a ∨
      s.assertReset.read .O a = Memory.readByte .O s.oldO a) ∧
    (∀ a, s.gridBytes ≤ a → s.assertReset.read .O a = Memory.readByte .O s.oldO a) ∧
    s.assertReset.statusWord = 0x0000 ∧ s.assertReset.x = 0 ∧ s.assertReset.y = 0 ∧ s.assertReset.c = 0

/-- R24, R25, R46: the reset state meets the invariants. The canonical form and `oldO` are the model's (log entries 1, 2). -/
def Obligations.ResetMeetsTheInvariants : Prop :=
  State.reset.RegisterInv ∧ State.reset.MemoryInv ∧ State.reset.Progress

/-! ## Invariants of every step -/

/-- R25: (a) to (d) hold after reset, and every step of either agent keeps them. -/
def Obligations.EveryStepKeepsTheRegisterInvariant : Prop :=
  State.reset.RegisterInv ∧ ∀ s t : State, s.RegisterInv → step s = .next t → t.RegisterInv

/-- The canonical form of the memories (log entry 1) is kept by every step of either agent. -/
def Obligations.EveryStepKeepsMemoriesCanonical : Prop :=
  ∀ s t : State, s.MemoryInv → step s = .next t → t.MemoryInv

/-- R84, R86, R94: every step of either agent keeps a running traversal exactly as far as its position says. -/
def Obligations.EveryStepKeepsTheTraversal : Prop :=
  ∀ s t : State, s.RegisterInv → s.Progress → step s = .next t → t.Progress

/-- A host step the spec gives the host never stops the machine (the model's stops are exactly U4, U9 and addresses beyond the
34-bit space), and a controller step never does where rule R25 holds. -/
def Obligations.NothingStopsAWellBehavedHost : Prop :=
  (∀ (s : State) (op : HostOp), op.wellFormed = true → KeepsDuty s op = true → ∃ t, hostStep op s = .next t) ∧
  (∀ s : State, s.RegisterInv → s.state = .busy → ∃ t, controllerStep s = .next t)
end

