-- ==== Sys2Proof/Laws/Memory.lean ====
section
/-! SUPPORT. The laws of one pixel memory: a read after a write, and the canonical form that every operation keeps. -/

namespace Sys2Proof.Machine

/-! ## Reads after writes -/

@[simp] theorem Memory.peek?_nil (a : Nat) : Memory.peek? [] a = none := rfl

theorem Memory.peek?_poke (m : Memory) (a b : Nat) (v : Byte) :
    Memory.peek? (Memory.poke m a v) b = if a = b then some v else Memory.peek? m b := by
  induction m with
  | nil => simp [Memory.poke, Memory.peek?]
  | cons e rest ih =>
    obtain ⟨k, w⟩ := e
    simp only [Memory.poke]
    split_ifs <;> simp_all [Memory.peek?]
    intros
    simp_all

@[simp] theorem Memory.peek?_poke_same (m : Memory) (a : Nat) (v : Byte) :
    Memory.peek? (Memory.poke m a v) a = some v := by
  simp [Memory.peek?_poke]

theorem Memory.peek?_poke_other (m : Memory) {a b : Nat} (v : Byte) (h : a ≠ b) :
    Memory.peek? (Memory.poke m a v) b = Memory.peek? m b := by
  simp [Memory.peek?_poke, h]

/-! ## The canonical form -/

@[simp] theorem Memory.wf_nil : Memory.wf [] = true := rfl

theorem Memory.wf_cons (k : Nat) (b : Byte) (rest : Memory) :
    Memory.wf ((k, b) :: rest) = true ↔
      k < Config.addrLimit ∧ (∀ e ∈ rest, k < e.1) ∧ Memory.wf rest = true := by
  simp [Memory.wf, and_assoc]

/-- Below the first address of a canonical memory nothing is listed. -/
theorem Memory.peek?_none_of_lt {m : Memory} {a : Nat} (h : ∀ e ∈ m, a < e.1) : Memory.peek? m a = none := by
  induction m with
  | nil => rfl
  | cons e rest ih =>
    have := h e (by simp)
    simp only [Memory.peek?]
    rw [if_neg (by omega), ih fun e' he' => h e' (by simp [he'])]

theorem Memory.mem_poke {m : Memory} {a : Nat} {v : Byte} {e : Host.Cell} (h : e ∈ Memory.poke m a v) :
    e = (a, v) ∨ e ∈ m := by
  induction m with
  | nil => simpa [Memory.poke] using h
  | cons e' rest ih =>
    simp only [Memory.poke] at h
    split_ifs at h
    · simpa using h
    · rcases List.mem_cons.1 h with h | h <;> simp [h]
    · rcases List.mem_cons.1 h with h | h
      · simp [h]
      · rcases ih h with h | h <;> simp [h]

theorem Memory.wf_poke {m : Memory} {a : Nat} (v : Byte) (hm : Memory.wf m = true) (ha : a < Config.addrLimit) :
    Memory.wf (Memory.poke m a v) = true := by
  induction m with
  | nil => simp only [Memory.poke, Memory.wf_cons]; exact ⟨ha, by simp, rfl⟩
  | cons e rest ih =>
    obtain ⟨k, w⟩ := e
    obtain ⟨hk, hlt, hrest⟩ := (Memory.wf_cons k w rest).1 hm
    simp only [Memory.poke]
    split_ifs with h1 h2
    · refine (Memory.wf_cons _ _ _).2 ⟨ha, fun e he => ?_, hm⟩
      rcases List.mem_cons.1 he with rfl | he
      · exact h1
      · exact h1.trans (hlt e he)
    · exact (Memory.wf_cons _ _ _).2 ⟨ha, by simpa [h2] using hlt, hrest⟩
    · refine (Memory.wf_cons _ _ _).2 ⟨hk, fun e he => ?_, ih hrest⟩
      rcases Memory.mem_poke he with rfl | he
      · simp only; omega
      · exact hlt e he

theorem Memory.mem_forget {m : Memory} {a : Nat} {e : Host.Cell} (h : e ∈ Memory.forget m a) : e ∈ m := by
  induction m with
  | nil => simp [Memory.forget] at h
  | cons e' rest ih =>
    simp only [Memory.forget] at h
    split_ifs at h
    · simp [h]
    · rcases List.mem_cons.1 h with h | h
      · simp [h]
      · simp [ih h]

theorem Memory.wf_forget {m : Memory} (a : Nat) (hm : Memory.wf m = true) : Memory.wf (Memory.forget m a) = true := by
  induction m with
  | nil => rfl
  | cons e rest ih =>
    obtain ⟨k, w⟩ := e
    obtain ⟨hk, hlt, hrest⟩ := (Memory.wf_cons k w rest).1 hm
    simp only [Memory.forget]
    split_ifs
    · exact hrest
    · exact (Memory.wf_cons _ _ _).2 ⟨hk, fun e he => hlt e (Memory.mem_forget he), ih hrest⟩

theorem Memory.peek?_forget {m : Memory} (a b : Nat) (hm : Memory.wf m = true) :
    Memory.peek? (Memory.forget m a) b = if a = b then none else Memory.peek? m b := by
  induction m with
  | nil => simp [Memory.forget]
  | cons e rest ih =>
    obtain ⟨k, w⟩ := e
    obtain ⟨-, hlt, hrest⟩ := (Memory.wf_cons k w rest).1 hm
    simp only [Memory.forget]
    by_cases hka : k = a
    · subst hka
      by_cases hkb : k = b
      · subst hkb
        simpa using Memory.peek?_none_of_lt hlt
      · simp [Memory.peek?, hkb]
    · rw [if_neg hka]
      simp only [Memory.peek?, ih hrest]
      by_cases hkb : k = b
      · subst hkb
        simp [Ne.symm hka]
      · simp [hkb]

theorem Memory.wf_setCell {m : Memory} {a : Nat} (cell : Option Byte) (hm : Memory.wf m = true)
    (ha : a < Config.addrLimit) : Memory.wf (Memory.setCell m a cell) = true := by
  cases cell with
  | none => exact Memory.wf_forget a hm
  | some b => exact Memory.wf_poke b hm ha

theorem Memory.peek?_setCell {m : Memory} (a b : Nat) (cell : Option Byte) (hm : Memory.wf m = true) :
    Memory.peek? (Memory.setCell m a cell) b = if a = b then cell else Memory.peek? m b := by
  cases cell with
  | none => exact Memory.peek?_forget a b hm
  | some v => exact Memory.peek?_poke m a b v

/-! ## Several bytes -/

theorem Memory.wf_pokeAll {m : Memory} {a : Nat} {bs : List Byte} (hm : Memory.wf m = true)
    (ha : a + bs.length ≤ Config.addrLimit) : Memory.wf (Memory.pokeAll m a bs) = true := by
  induction bs generalizing m a with
  | nil => exact hm
  | cons b bs ih =>
    simp only [List.length_cons] at ha
    exact ih (Memory.wf_poke b hm (by omega)) (by omega)

theorem Memory.peek?_pokeAll (m : Memory) (a b : Nat) (bs : List Byte) :
    Memory.peek? (Memory.pokeAll m a bs) b =
      if a ≤ b ∧ b < a + bs.length then bs[b - a]? else Memory.peek? m b := by
  induction bs generalizing m a with
  | nil => simp [Memory.pokeAll]
  | cons v bs ih =>
    simp only [Memory.pokeAll, ih, Memory.peek?_poke, List.length_cons]
    by_cases hab : a = b
    · subst hab
      simp
    · by_cases h : a + 1 ≤ b ∧ b < a + 1 + bs.length
      · rw [if_pos h, if_pos (by omega), show b - a = (b - (a + 1)) + 1 by omega, List.getElem?_cons_succ]
      · rw [if_neg h, if_neg hab, if_neg (by omega)]

theorem Memory.readBytes_length (sp : Space) (m : Memory) (a n : Nat) : (Memory.readBytes sp m a n).length = n := by
  induction n generalizing a with
  | zero => rfl
  | succ n ih => simp [Memory.readBytes, ih]

theorem Memory.readBytes_getElem? (sp : Space) (m : Memory) (a n i : Nat) (h : i < n) :
    (Memory.readBytes sp m a n)[i]? = some (Memory.readByte sp m (a + i)) := by
  induction n generalizing a i with
  | zero => omega
  | succ n ih =>
    cases i with
    | zero => simp [Memory.readBytes]
    | succ i =>
      simp only [Memory.readBytes, List.getElem?_cons_succ]
      rw [ih (a + 1) i (by omega), show a + 1 + i = a + (i + 1) by omega]

/-! ## One byte, as a read returns it -/

theorem Memory.readByte_congr {sp : Space} {m m' : Memory} {a : Nat} (h : Memory.peek? m a = Memory.peek? m' a) :
    Memory.readByte sp m a = Memory.readByte sp m' a := by
  simp [Memory.readByte, h]

theorem Memory.readByte_of_peek? {sp : Space} {m : Memory} {a : Nat} {b : Byte} (h : Memory.peek? m a = some b) :
    Memory.readByte sp m a = b := by
  simp [Memory.readByte, h]

end Sys2Proof.Machine
end

