-- ==== Sys2Proof/Laws/State.lean ====
section
/-! SUPPORT. One lemma per field per update of a state, so that no proof unfolds a record update. -/

namespace Sys2Proof.Machine

@[simp] theorem State.mem_A (s : State) : s.mem .A = s.memA := rfl
@[simp] theorem State.mem_B (s : State) : s.mem .B = s.memB := rfl
@[simp] theorem State.mem_O (s : State) : s.mem .O = s.memO := rfl

/-! ## setPos -/

@[simp] theorem State.setPos_nsig (s : State) (x y : Word) (c : BitVec 2) : (s.setPos x y c).nsig = s.nsig := rfl
@[simp] theorem State.setPos_aW (s : State) (x y : Word) (c : BitVec 2) : (s.setPos x y c).aW = s.aW := rfl
@[simp] theorem State.setPos_aH (s : State) (x y : Word) (c : BitVec 2) : (s.setPos x y c).aH = s.aH := rfl
@[simp] theorem State.setPos_bW (s : State) (x y : Word) (c : BitVec 2) : (s.setPos x y c).bW = s.bW := rfl
@[simp] theorem State.setPos_bH (s : State) (x y : Word) (c : BitVec 2) : (s.setPos x y c).bH = s.bH := rfl
@[simp] theorem State.setPos_state (s : State) (x y : Word) (c : BitVec 2) : (s.setPos x y c).state = s.state := rfl
@[simp] theorem State.setPos_err (s : State) (x y : Word) (c : BitVec 2) : (s.setPos x y c).err = s.err := rfl
@[simp] theorem State.setPos_errinfo (s : State) (x y : Word) (c : BitVec 2) : (s.setPos x y c).errinfo = s.errinfo := rfl
@[simp] theorem State.setPos_opl (s : State) (x y : Word) (c : BitVec 2) : (s.setPos x y c).opl = s.opl := rfl
@[simp] theorem State.setPos_x (s : State) (x y : Word) (c : BitVec 2) : (s.setPos x y c).x = x := rfl
@[simp] theorem State.setPos_y (s : State) (x y : Word) (c : BitVec 2) : (s.setPos x y c).y = y := rfl
@[simp] theorem State.setPos_c (s : State) (x y : Word) (c : BitVec 2) : (s.setPos x y c).c = c := rfl
@[simp] theorem State.setPos_memA (s : State) (x y : Word) (c : BitVec 2) : (s.setPos x y c).memA = s.memA := rfl
@[simp] theorem State.setPos_memB (s : State) (x y : Word) (c : BitVec 2) : (s.setPos x y c).memB = s.memB := rfl
@[simp] theorem State.setPos_memO (s : State) (x y : Word) (c : BitVec 2) : (s.setPos x y c).memO = s.memO := rfl
@[simp] theorem State.setPos_oldO (s : State) (x y : Word) (c : BitVec 2) : (s.setPos x y c).oldO = s.oldO := rfl
@[simp] theorem State.setPos_abandons (s : State) (x y : Word) (c : BitVec 2) : (s.setPos x y c).abandons = s.abandons := rfl
@[simp] theorem State.setPos_script (s : State) (x y : Word) (c : BitVec 2) : (s.setPos x y c).script = s.script := rfl
@[simp] theorem State.setPos_log (s : State) (x y : Word) (c : BitVec 2) : (s.setPos x y c).log = s.log := rfl

/-! ## setOutcome -/

@[simp] theorem State.setOutcome_nsig (s : State) (st : RunState) (e : ErrCode) (i : Word) : (s.setOutcome st e i).nsig = s.nsig := rfl
@[simp] theorem State.setOutcome_aW (s : State) (st : RunState) (e : ErrCode) (i : Word) : (s.setOutcome st e i).aW = s.aW := rfl
@[simp] theorem State.setOutcome_aH (s : State) (st : RunState) (e : ErrCode) (i : Word) : (s.setOutcome st e i).aH = s.aH := rfl
@[simp] theorem State.setOutcome_bW (s : State) (st : RunState) (e : ErrCode) (i : Word) : (s.setOutcome st e i).bW = s.bW := rfl
@[simp] theorem State.setOutcome_bH (s : State) (st : RunState) (e : ErrCode) (i : Word) : (s.setOutcome st e i).bH = s.bH := rfl
@[simp] theorem State.setOutcome_state (s : State) (st : RunState) (e : ErrCode) (i : Word) : (s.setOutcome st e i).state = st := rfl
@[simp] theorem State.setOutcome_err (s : State) (st : RunState) (e : ErrCode) (i : Word) : (s.setOutcome st e i).err = e := rfl
@[simp] theorem State.setOutcome_errinfo (s : State) (st : RunState) (e : ErrCode) (i : Word) : (s.setOutcome st e i).errinfo = i := rfl
@[simp] theorem State.setOutcome_opl (s : State) (st : RunState) (e : ErrCode) (i : Word) : (s.setOutcome st e i).opl = s.opl := rfl
@[simp] theorem State.setOutcome_x (s : State) (st : RunState) (e : ErrCode) (i : Word) : (s.setOutcome st e i).x = s.x := rfl
@[simp] theorem State.setOutcome_y (s : State) (st : RunState) (e : ErrCode) (i : Word) : (s.setOutcome st e i).y = s.y := rfl
@[simp] theorem State.setOutcome_c (s : State) (st : RunState) (e : ErrCode) (i : Word) : (s.setOutcome st e i).c = s.c := rfl
@[simp] theorem State.setOutcome_memA (s : State) (st : RunState) (e : ErrCode) (i : Word) : (s.setOutcome st e i).memA = s.memA := rfl
@[simp] theorem State.setOutcome_memB (s : State) (st : RunState) (e : ErrCode) (i : Word) : (s.setOutcome st e i).memB = s.memB := rfl
@[simp] theorem State.setOutcome_memO (s : State) (st : RunState) (e : ErrCode) (i : Word) : (s.setOutcome st e i).memO = s.memO := rfl
@[simp] theorem State.setOutcome_oldO (s : State) (st : RunState) (e : ErrCode) (i : Word) : (s.setOutcome st e i).oldO = s.oldO := rfl
@[simp] theorem State.setOutcome_abandons (s : State) (st : RunState) (e : ErrCode) (i : Word) : (s.setOutcome st e i).abandons = s.abandons := rfl
@[simp] theorem State.setOutcome_script (s : State) (st : RunState) (e : ErrCode) (i : Word) : (s.setOutcome st e i).script = s.script := rfl
@[simp] theorem State.setOutcome_log (s : State) (st : RunState) (e : ErrCode) (i : Word) : (s.setOutcome st e i).log = s.log := rfl

/-! ## record -/

@[simp] theorem State.record_nsig (s : State) (r : HostRead) : (s.record r).nsig = s.nsig := rfl
@[simp] theorem State.record_aW (s : State) (r : HostRead) : (s.record r).aW = s.aW := rfl
@[simp] theorem State.record_aH (s : State) (r : HostRead) : (s.record r).aH = s.aH := rfl
@[simp] theorem State.record_bW (s : State) (r : HostRead) : (s.record r).bW = s.bW := rfl
@[simp] theorem State.record_bH (s : State) (r : HostRead) : (s.record r).bH = s.bH := rfl
@[simp] theorem State.record_state (s : State) (r : HostRead) : (s.record r).state = s.state := rfl
@[simp] theorem State.record_err (s : State) (r : HostRead) : (s.record r).err = s.err := rfl
@[simp] theorem State.record_errinfo (s : State) (r : HostRead) : (s.record r).errinfo = s.errinfo := rfl
@[simp] theorem State.record_opl (s : State) (r : HostRead) : (s.record r).opl = s.opl := rfl
@[simp] theorem State.record_x (s : State) (r : HostRead) : (s.record r).x = s.x := rfl
@[simp] theorem State.record_y (s : State) (r : HostRead) : (s.record r).y = s.y := rfl
@[simp] theorem State.record_c (s : State) (r : HostRead) : (s.record r).c = s.c := rfl
@[simp] theorem State.record_memA (s : State) (r : HostRead) : (s.record r).memA = s.memA := rfl
@[simp] theorem State.record_memB (s : State) (r : HostRead) : (s.record r).memB = s.memB := rfl
@[simp] theorem State.record_memO (s : State) (r : HostRead) : (s.record r).memO = s.memO := rfl
@[simp] theorem State.record_oldO (s : State) (r : HostRead) : (s.record r).oldO = s.oldO := rfl
@[simp] theorem State.record_abandons (s : State) (r : HostRead) : (s.record r).abandons = s.abandons := rfl
@[simp] theorem State.record_script (s : State) (r : HostRead) : (s.record r).script = s.script := rfl
@[simp] theorem State.record_log (s : State) (r : HostRead) : (s.record r).log = s.log ++ [r] := rfl

/-! ## raiseError -/

@[simp] theorem State.raiseError_nsig (s : State) (e : ErrCode) (i : Word) : (s.raiseError e i).nsig = s.nsig := rfl
@[simp] theorem State.raiseError_aW (s : State) (e : ErrCode) (i : Word) : (s.raiseError e i).aW = s.aW := rfl
@[simp] theorem State.raiseError_aH (s : State) (e : ErrCode) (i : Word) : (s.raiseError e i).aH = s.aH := rfl
@[simp] theorem State.raiseError_bW (s : State) (e : ErrCode) (i : Word) : (s.raiseError e i).bW = s.bW := rfl
@[simp] theorem State.raiseError_bH (s : State) (e : ErrCode) (i : Word) : (s.raiseError e i).bH = s.bH := rfl
@[simp] theorem State.raiseError_state (s : State) (e : ErrCode) (i : Word) : (s.raiseError e i).state = .error := rfl
@[simp] theorem State.raiseError_err (s : State) (e : ErrCode) (i : Word) : (s.raiseError e i).err = e := rfl
@[simp] theorem State.raiseError_errinfo (s : State) (e : ErrCode) (i : Word) : (s.raiseError e i).errinfo = i := rfl
@[simp] theorem State.raiseError_opl (s : State) (e : ErrCode) (i : Word) : (s.raiseError e i).opl = s.opl := rfl
@[simp] theorem State.raiseError_x (s : State) (e : ErrCode) (i : Word) : (s.raiseError e i).x = 0 := rfl
@[simp] theorem State.raiseError_y (s : State) (e : ErrCode) (i : Word) : (s.raiseError e i).y = 0 := rfl
@[simp] theorem State.raiseError_c (s : State) (e : ErrCode) (i : Word) : (s.raiseError e i).c = 0 := rfl
@[simp] theorem State.raiseError_memA (s : State) (e : ErrCode) (i : Word) : (s.raiseError e i).memA = s.memA := rfl
@[simp] theorem State.raiseError_memB (s : State) (e : ErrCode) (i : Word) : (s.raiseError e i).memB = s.memB := rfl
@[simp] theorem State.raiseError_memO (s : State) (e : ErrCode) (i : Word) : (s.raiseError e i).memO = s.memO := rfl
@[simp] theorem State.raiseError_oldO (s : State) (e : ErrCode) (i : Word) : (s.raiseError e i).oldO = s.oldO := rfl
@[simp] theorem State.raiseError_abandons (s : State) (e : ErrCode) (i : Word) : (s.raiseError e i).abandons = s.abandons := rfl
@[simp] theorem State.raiseError_script (s : State) (e : ErrCode) (i : Word) : (s.raiseError e i).script = s.script := rfl
@[simp] theorem State.raiseError_log (s : State) (e : ErrCode) (i : Word) : (s.raiseError e i).log = s.log := rfl

/-! ## setMem -/

@[simp] theorem State.setMemA_nsig (s : State) (m : Memory) : (s.setMem m .A).nsig = s.nsig := rfl
@[simp] theorem State.setMemA_aW (s : State) (m : Memory) : (s.setMem m .A).aW = s.aW := rfl
@[simp] theorem State.setMemA_aH (s : State) (m : Memory) : (s.setMem m .A).aH = s.aH := rfl
@[simp] theorem State.setMemA_bW (s : State) (m : Memory) : (s.setMem m .A).bW = s.bW := rfl
@[simp] theorem State.setMemA_bH (s : State) (m : Memory) : (s.setMem m .A).bH = s.bH := rfl
@[simp] theorem State.setMemA_state (s : State) (m : Memory) : (s.setMem m .A).state = s.state := rfl
@[simp] theorem State.setMemA_err (s : State) (m : Memory) : (s.setMem m .A).err = s.err := rfl
@[simp] theorem State.setMemA_errinfo (s : State) (m : Memory) : (s.setMem m .A).errinfo = s.errinfo := rfl
@[simp] theorem State.setMemA_opl (s : State) (m : Memory) : (s.setMem m .A).opl = s.opl := rfl
@[simp] theorem State.setMemA_x (s : State) (m : Memory) : (s.setMem m .A).x = s.x := rfl
@[simp] theorem State.setMemA_y (s : State) (m : Memory) : (s.setMem m .A).y = s.y := rfl
@[simp] theorem State.setMemA_c (s : State) (m : Memory) : (s.setMem m .A).c = s.c := rfl
@[simp] theorem State.setMemA_memA (s : State) (m : Memory) : (s.setMem m .A).memA = m := rfl
@[simp] theorem State.setMemA_memB (s : State) (m : Memory) : (s.setMem m .A).memB = s.memB := rfl
@[simp] theorem State.setMemA_memO (s : State) (m : Memory) : (s.setMem m .A).memO = s.memO := rfl
@[simp] theorem State.setMemA_oldO (s : State) (m : Memory) : (s.setMem m .A).oldO = s.oldO := rfl
@[simp] theorem State.setMemA_abandons (s : State) (m : Memory) : (s.setMem m .A).abandons = s.abandons := rfl
@[simp] theorem State.setMemA_script (s : State) (m : Memory) : (s.setMem m .A).script = s.script := rfl
@[simp] theorem State.setMemA_log (s : State) (m : Memory) : (s.setMem m .A).log = s.log := rfl

/-! ## setMem -/

@[simp] theorem State.setMemB_nsig (s : State) (m : Memory) : (s.setMem m .B).nsig = s.nsig := rfl
@[simp] theorem State.setMemB_aW (s : State) (m : Memory) : (s.setMem m .B).aW = s.aW := rfl
@[simp] theorem State.setMemB_aH (s : State) (m : Memory) : (s.setMem m .B).aH = s.aH := rfl
@[simp] theorem State.setMemB_bW (s : State) (m : Memory) : (s.setMem m .B).bW = s.bW := rfl
@[simp] theorem State.setMemB_bH (s : State) (m : Memory) : (s.setMem m .B).bH = s.bH := rfl
@[simp] theorem State.setMemB_state (s : State) (m : Memory) : (s.setMem m .B).state = s.state := rfl
@[simp] theorem State.setMemB_err (s : State) (m : Memory) : (s.setMem m .B).err = s.err := rfl
@[simp] theorem State.setMemB_errinfo (s : State) (m : Memory) : (s.setMem m .B).errinfo = s.errinfo := rfl
@[simp] theorem State.setMemB_opl (s : State) (m : Memory) : (s.setMem m .B).opl = s.opl := rfl
@[simp] theorem State.setMemB_x (s : State) (m : Memory) : (s.setMem m .B).x = s.x := rfl
@[simp] theorem State.setMemB_y (s : State) (m : Memory) : (s.setMem m .B).y = s.y := rfl
@[simp] theorem State.setMemB_c (s : State) (m : Memory) : (s.setMem m .B).c = s.c := rfl
@[simp] theorem State.setMemB_memA (s : State) (m : Memory) : (s.setMem m .B).memA = s.memA := rfl
@[simp] theorem State.setMemB_memB (s : State) (m : Memory) : (s.setMem m .B).memB = m := rfl
@[simp] theorem State.setMemB_memO (s : State) (m : Memory) : (s.setMem m .B).memO = s.memO := rfl
@[simp] theorem State.setMemB_oldO (s : State) (m : Memory) : (s.setMem m .B).oldO = s.oldO := rfl
@[simp] theorem State.setMemB_abandons (s : State) (m : Memory) : (s.setMem m .B).abandons = s.abandons := rfl
@[simp] theorem State.setMemB_script (s : State) (m : Memory) : (s.setMem m .B).script = s.script := rfl
@[simp] theorem State.setMemB_log (s : State) (m : Memory) : (s.setMem m .B).log = s.log := rfl

/-! ## setMem -/

@[simp] theorem State.setMemO_nsig (s : State) (m : Memory) : (s.setMem m .O).nsig = s.nsig := rfl
@[simp] theorem State.setMemO_aW (s : State) (m : Memory) : (s.setMem m .O).aW = s.aW := rfl
@[simp] theorem State.setMemO_aH (s : State) (m : Memory) : (s.setMem m .O).aH = s.aH := rfl
@[simp] theorem State.setMemO_bW (s : State) (m : Memory) : (s.setMem m .O).bW = s.bW := rfl
@[simp] theorem State.setMemO_bH (s : State) (m : Memory) : (s.setMem m .O).bH = s.bH := rfl
@[simp] theorem State.setMemO_state (s : State) (m : Memory) : (s.setMem m .O).state = s.state := rfl
@[simp] theorem State.setMemO_err (s : State) (m : Memory) : (s.setMem m .O).err = s.err := rfl
@[simp] theorem State.setMemO_errinfo (s : State) (m : Memory) : (s.setMem m .O).errinfo = s.errinfo := rfl
@[simp] theorem State.setMemO_opl (s : State) (m : Memory) : (s.setMem m .O).opl = s.opl := rfl
@[simp] theorem State.setMemO_x (s : State) (m : Memory) : (s.setMem m .O).x = s.x := rfl
@[simp] theorem State.setMemO_y (s : State) (m : Memory) : (s.setMem m .O).y = s.y := rfl
@[simp] theorem State.setMemO_c (s : State) (m : Memory) : (s.setMem m .O).c = s.c := rfl
@[simp] theorem State.setMemO_memA (s : State) (m : Memory) : (s.setMem m .O).memA = s.memA := rfl
@[simp] theorem State.setMemO_memB (s : State) (m : Memory) : (s.setMem m .O).memB = s.memB := rfl
@[simp] theorem State.setMemO_memO (s : State) (m : Memory) : (s.setMem m .O).memO = m := rfl
@[simp] theorem State.setMemO_oldO (s : State) (m : Memory) : (s.setMem m .O).oldO = s.oldO := rfl
@[simp] theorem State.setMemO_abandons (s : State) (m : Memory) : (s.setMem m .O).abandons = s.abandons := rfl
@[simp] theorem State.setMemO_script (s : State) (m : Memory) : (s.setMem m .O).script = s.script := rfl
@[simp] theorem State.setMemO_log (s : State) (m : Memory) : (s.setMem m .O).log = s.log := rfl

/-! ## finish -/

@[simp] theorem State.finish_nsig (s : State) : (s.finish).nsig = s.nsig := rfl
@[simp] theorem State.finish_aW (s : State) : (s.finish).aW = s.aW := rfl
@[simp] theorem State.finish_aH (s : State) : (s.finish).aH = s.aH := rfl
@[simp] theorem State.finish_bW (s : State) : (s.finish).bW = s.bW := rfl
@[simp] theorem State.finish_bH (s : State) : (s.finish).bH = s.bH := rfl
@[simp] theorem State.finish_state (s : State) : (s.finish).state = .done := rfl
@[simp] theorem State.finish_err (s : State) : (s.finish).err = s.err := rfl
@[simp] theorem State.finish_errinfo (s : State) : (s.finish).errinfo = s.errinfo := rfl
@[simp] theorem State.finish_opl (s : State) : (s.finish).opl = s.opl := rfl
@[simp] theorem State.finish_x (s : State) : (s.finish).x = 0 := rfl
@[simp] theorem State.finish_y (s : State) : (s.finish).y = 0 := rfl
@[simp] theorem State.finish_c (s : State) : (s.finish).c = 0 := rfl
@[simp] theorem State.finish_memA (s : State) : (s.finish).memA = s.memA := rfl
@[simp] theorem State.finish_memB (s : State) : (s.finish).memB = s.memB := rfl
@[simp] theorem State.finish_memO (s : State) : (s.finish).memO = s.memO := rfl
@[simp] theorem State.finish_oldO (s : State) : (s.finish).oldO = [] := rfl
@[simp] theorem State.finish_abandons (s : State) : (s.finish).abandons = s.abandons := rfl
@[simp] theorem State.finish_script (s : State) : (s.finish).script = s.script := rfl
@[simp] theorem State.finish_log (s : State) : (s.finish).log = s.log := rfl

/-! ## tick -/

@[simp] theorem State.tick_nsig (s : State) : (s.tick).nsig = s.nsig := rfl
@[simp] theorem State.tick_aW (s : State) : (s.tick).aW = s.aW := rfl
@[simp] theorem State.tick_aH (s : State) : (s.tick).aH = s.aH := rfl
@[simp] theorem State.tick_bW (s : State) : (s.tick).bW = s.bW := rfl
@[simp] theorem State.tick_bH (s : State) : (s.tick).bH = s.bH := rfl
@[simp] theorem State.tick_state (s : State) : (s.tick).state = s.state := rfl
@[simp] theorem State.tick_err (s : State) : (s.tick).err = s.err := rfl
@[simp] theorem State.tick_errinfo (s : State) : (s.tick).errinfo = s.errinfo := rfl
@[simp] theorem State.tick_opl (s : State) : (s.tick).opl = s.opl := rfl
@[simp] theorem State.tick_x (s : State) : (s.tick).x = s.x := rfl
@[simp] theorem State.tick_y (s : State) : (s.tick).y = s.y := rfl
@[simp] theorem State.tick_c (s : State) : (s.tick).c = s.c := rfl
@[simp] theorem State.tick_memA (s : State) : (s.tick).memA = s.memA := rfl
@[simp] theorem State.tick_memB (s : State) : (s.tick).memB = s.memB := rfl
@[simp] theorem State.tick_memO (s : State) : (s.tick).memO = s.memO := rfl
@[simp] theorem State.tick_oldO (s : State) : (s.tick).oldO = s.oldO := rfl
@[simp] theorem State.tick_abandons (s : State) : (s.tick).abandons = s.abandons := rfl
@[simp] theorem State.tick_script (s : State) : (s.tick).script = countDown s.script := rfl
@[simp] theorem State.tick_log (s : State) : (s.tick).log = s.log := rfl

/-! ## resetBlock -/

@[simp] theorem State.resetBlock_nsig (s : State) : (s.resetBlock).nsig = 1 := rfl
@[simp] theorem State.resetBlock_aW (s : State) : (s.resetBlock).aW = 0 := rfl
@[simp] theorem State.resetBlock_aH (s : State) : (s.resetBlock).aH = 0 := rfl
@[simp] theorem State.resetBlock_bW (s : State) : (s.resetBlock).bW = 0 := rfl
@[simp] theorem State.resetBlock_bH (s : State) : (s.resetBlock).bH = 0 := rfl
@[simp] theorem State.resetBlock_state (s : State) : (s.resetBlock).state = .idle := rfl
@[simp] theorem State.resetBlock_err (s : State) : (s.resetBlock).err = .noError := rfl
@[simp] theorem State.resetBlock_errinfo (s : State) : (s.resetBlock).errinfo = 0 := rfl
@[simp] theorem State.resetBlock_opl (s : State) : (s.resetBlock).opl = .embed := rfl
@[simp] theorem State.resetBlock_x (s : State) : (s.resetBlock).x = 0 := rfl
@[simp] theorem State.resetBlock_y (s : State) : (s.resetBlock).y = 0 := rfl
@[simp] theorem State.resetBlock_c (s : State) : (s.resetBlock).c = 0 := rfl
@[simp] theorem State.resetBlock_memA (s : State) : (s.resetBlock).memA = s.memA := rfl
@[simp] theorem State.resetBlock_memB (s : State) : (s.resetBlock).memB = s.memB := rfl
@[simp] theorem State.resetBlock_memO (s : State) : (s.resetBlock).memO = s.memO := rfl
@[simp] theorem State.resetBlock_oldO (s : State) : (s.resetBlock).oldO = [] := rfl
@[simp] theorem State.resetBlock_abandons (s : State) : (s.resetBlock).abandons = s.abandons := rfl
@[simp] theorem State.resetBlock_script (s : State) : (s.resetBlock).script = s.script := rfl
@[simp] theorem State.resetBlock_log (s : State) : (s.resetBlock).log = s.log := rfl

/-! ## pushCommand -/

@[simp] theorem State.pushCommand_nsig (s : State) (v : Word) : (s.pushCommand v).nsig = s.nsig := rfl
@[simp] theorem State.pushCommand_aW (s : State) (v : Word) : (s.pushCommand v).aW = s.aW := rfl
@[simp] theorem State.pushCommand_aH (s : State) (v : Word) : (s.pushCommand v).aH = s.aH := rfl
@[simp] theorem State.pushCommand_bW (s : State) (v : Word) : (s.pushCommand v).bW = s.bW := rfl
@[simp] theorem State.pushCommand_bH (s : State) (v : Word) : (s.pushCommand v).bH = s.bH := rfl
@[simp] theorem State.pushCommand_state (s : State) (v : Word) : (s.pushCommand v).state = s.state := rfl
@[simp] theorem State.pushCommand_err (s : State) (v : Word) : (s.pushCommand v).err = s.err := rfl
@[simp] theorem State.pushCommand_errinfo (s : State) (v : Word) : (s.pushCommand v).errinfo = s.errinfo := rfl
@[simp] theorem State.pushCommand_opl (s : State) (v : Word) : (s.pushCommand v).opl = s.opl := rfl
@[simp] theorem State.pushCommand_x (s : State) (v : Word) : (s.pushCommand v).x = s.x := rfl
@[simp] theorem State.pushCommand_y (s : State) (v : Word) : (s.pushCommand v).y = s.y := rfl
@[simp] theorem State.pushCommand_c (s : State) (v : Word) : (s.pushCommand v).c = s.c := rfl
@[simp] theorem State.pushCommand_memA (s : State) (v : Word) : (s.pushCommand v).memA = s.memA := rfl
@[simp] theorem State.pushCommand_memB (s : State) (v : Word) : (s.pushCommand v).memB = s.memB := rfl
@[simp] theorem State.pushCommand_memO (s : State) (v : Word) : (s.pushCommand v).memO = s.memO := rfl
@[simp] theorem State.pushCommand_oldO (s : State) (v : Word) : (s.pushCommand v).oldO = s.oldO := rfl
@[simp] theorem State.pushCommand_abandons (s : State) (v : Word) : (s.pushCommand v).abandons = s.abandons := rfl
@[simp] theorem State.pushCommand_script (s : State) (v : Word) : (s.pushCommand v).script = ⟨0, HostOp.wr .cmd v⟩ :: s.script := rfl
@[simp] theorem State.pushCommand_log (s : State) (v : Word) : (s.pushCommand v).log = s.log := rfl

/-! ## writeChannel -/

@[simp] theorem State.writeChannel_nsig (s : State) (m : Byte) : (s.writeChannel m).nsig = s.nsig := rfl
@[simp] theorem State.writeChannel_aW (s : State) (m : Byte) : (s.writeChannel m).aW = s.aW := rfl
@[simp] theorem State.writeChannel_aH (s : State) (m : Byte) : (s.writeChannel m).aH = s.aH := rfl
@[simp] theorem State.writeChannel_bW (s : State) (m : Byte) : (s.writeChannel m).bW = s.bW := rfl
@[simp] theorem State.writeChannel_bH (s : State) (m : Byte) : (s.writeChannel m).bH = s.bH := rfl
@[simp] theorem State.writeChannel_state (s : State) (m : Byte) : (s.writeChannel m).state = s.state := rfl
@[simp] theorem State.writeChannel_err (s : State) (m : Byte) : (s.writeChannel m).err = s.err := rfl
@[simp] theorem State.writeChannel_errinfo (s : State) (m : Byte) : (s.writeChannel m).errinfo = s.errinfo := rfl
@[simp] theorem State.writeChannel_opl (s : State) (m : Byte) : (s.writeChannel m).opl = s.opl := rfl
@[simp] theorem State.writeChannel_x (s : State) (m : Byte) : (s.writeChannel m).x = s.x := rfl
@[simp] theorem State.writeChannel_y (s : State) (m : Byte) : (s.writeChannel m).y = s.y := rfl
@[simp] theorem State.writeChannel_c (s : State) (m : Byte) : (s.writeChannel m).c = s.c := rfl
@[simp] theorem State.writeChannel_memA (s : State) (m : Byte) : (s.writeChannel m).memA = s.memA := rfl
@[simp] theorem State.writeChannel_memB (s : State) (m : Byte) : (s.writeChannel m).memB = s.memB := rfl
@[simp] theorem State.writeChannel_memO (s : State) (m : Byte) : (s.writeChannel m).memO = Memory.poke s.memO s.addr (s.channelOut m s.addr) := rfl
@[simp] theorem State.writeChannel_oldO (s : State) (m : Byte) : (s.writeChannel m).oldO = s.oldO := rfl
@[simp] theorem State.writeChannel_abandons (s : State) (m : Byte) : (s.writeChannel m).abandons = s.abandons := rfl
@[simp] theorem State.writeChannel_script (s : State) (m : Byte) : (s.writeChannel m).script = s.script := rfl
@[simp] theorem State.writeChannel_log (s : State) (m : Byte) : (s.writeChannel m).log = s.log := rfl

/-! ## nextPos and writeConfig: the fields they never change -/

@[simp] theorem State.nextPos_nsig (s : State) : s.nextPos.nsig = s.nsig := by
  unfold State.nextPos
  split_ifs <;> rfl
@[simp] theorem State.nextPos_aW (s : State) : s.nextPos.aW = s.aW := by
  unfold State.nextPos
  split_ifs <;> rfl
@[simp] theorem State.nextPos_aH (s : State) : s.nextPos.aH = s.aH := by
  unfold State.nextPos
  split_ifs <;> rfl
@[simp] theorem State.nextPos_bW (s : State) : s.nextPos.bW = s.bW := by
  unfold State.nextPos
  split_ifs <;> rfl
@[simp] theorem State.nextPos_bH (s : State) : s.nextPos.bH = s.bH := by
  unfold State.nextPos
  split_ifs <;> rfl
@[simp] theorem State.nextPos_state (s : State) : s.nextPos.state = s.state := by
  unfold State.nextPos
  split_ifs <;> rfl
@[simp] theorem State.nextPos_err (s : State) : s.nextPos.err = s.err := by
  unfold State.nextPos
  split_ifs <;> rfl
@[simp] theorem State.nextPos_errinfo (s : State) : s.nextPos.errinfo = s.errinfo := by
  unfold State.nextPos
  split_ifs <;> rfl
@[simp] theorem State.nextPos_opl (s : State) : s.nextPos.opl = s.opl := by
  unfold State.nextPos
  split_ifs <;> rfl
@[simp] theorem State.nextPos_memA (s : State) : s.nextPos.memA = s.memA := by
  unfold State.nextPos
  split_ifs <;> rfl
@[simp] theorem State.nextPos_memB (s : State) : s.nextPos.memB = s.memB := by
  unfold State.nextPos
  split_ifs <;> rfl
@[simp] theorem State.nextPos_memO (s : State) : s.nextPos.memO = s.memO := by
  unfold State.nextPos
  split_ifs <;> rfl
@[simp] theorem State.nextPos_oldO (s : State) : s.nextPos.oldO = s.oldO := by
  unfold State.nextPos
  split_ifs <;> rfl
@[simp] theorem State.nextPos_abandons (s : State) : s.nextPos.abandons = s.abandons := by
  unfold State.nextPos
  split_ifs <;> rfl
@[simp] theorem State.nextPos_script (s : State) : s.nextPos.script = s.script := by
  unfold State.nextPos
  split_ifs <;> rfl
@[simp] theorem State.nextPos_log (s : State) : s.nextPos.log = s.log := by
  unfold State.nextPos
  split_ifs <;> rfl
@[simp] theorem State.writeConfig_state (s : State) (v : Word) (r : Reg) : (s.writeConfig v r).state = s.state := by
  cases r <;> rfl
@[simp] theorem State.writeConfig_err (s : State) (v : Word) (r : Reg) : (s.writeConfig v r).err = s.err := by
  cases r <;> rfl
@[simp] theorem State.writeConfig_errinfo (s : State) (v : Word) (r : Reg) : (s.writeConfig v r).errinfo = s.errinfo := by
  cases r <;> rfl
@[simp] theorem State.writeConfig_opl (s : State) (v : Word) (r : Reg) : (s.writeConfig v r).opl = s.opl := by
  cases r <;> rfl
@[simp] theorem State.writeConfig_x (s : State) (v : Word) (r : Reg) : (s.writeConfig v r).x = s.x := by
  cases r <;> rfl
@[simp] theorem State.writeConfig_y (s : State) (v : Word) (r : Reg) : (s.writeConfig v r).y = s.y := by
  cases r <;> rfl
@[simp] theorem State.writeConfig_c (s : State) (v : Word) (r : Reg) : (s.writeConfig v r).c = s.c := by
  cases r <;> rfl
@[simp] theorem State.writeConfig_memA (s : State) (v : Word) (r : Reg) : (s.writeConfig v r).memA = s.memA := by
  cases r <;> rfl
@[simp] theorem State.writeConfig_memB (s : State) (v : Word) (r : Reg) : (s.writeConfig v r).memB = s.memB := by
  cases r <;> rfl
@[simp] theorem State.writeConfig_memO (s : State) (v : Word) (r : Reg) : (s.writeConfig v r).memO = s.memO := by
  cases r <;> rfl
@[simp] theorem State.writeConfig_oldO (s : State) (v : Word) (r : Reg) : (s.writeConfig v r).oldO = s.oldO := by
  cases r <;> rfl
@[simp] theorem State.writeConfig_abandons (s : State) (v : Word) (r : Reg) : (s.writeConfig v r).abandons = s.abandons := by
  cases r <;> rfl
@[simp] theorem State.writeConfig_script (s : State) (v : Word) (r : Reg) : (s.writeConfig v r).script = s.script := by
  cases r <;> rfl
@[simp] theorem State.writeConfig_log (s : State) (v : Word) (r : Reg) : (s.writeConfig v r).log = s.log := by
  cases r <;> rfl

/-! ## What depends on some fields only -/

theorem State.channelOut_congr {s t : State} (m : Byte) (a : Nat) (hl : t.opl = s.opl) (hA : t.memA = s.memA)
    (hB : t.memB = s.memB) : t.channelOut m a = s.channelOut m a := by
  simp [State.channelOut, State.read, hl, hA, hB]

theorem State.mask?_congr {s t : State} (h : t.nsig = s.nsig) : t.mask? = s.mask? := by
  simp [State.mask?, h]

theorem State.gridBytes_congr {s t : State} (hw : t.aW = s.aW) (hh : t.aH = s.aH) : t.gridBytes = s.gridBytes := by
  simp [State.gridBytes, hw, hh]

theorem State.finalByte?_congr {s t : State} (a : Nat) (hn : t.nsig = s.nsig) (hl : t.opl = s.opl) (hA : t.memA = s.memA)
    (hB : t.memB = s.memB) : t.finalByte? a = s.finalByte? a := by
  simp only [State.finalByte?, State.mask?_congr hn, State.channelOut_congr _ a hl hA hB]

end Sys2Proof.Machine
end

