-- ==== Sys2Proof/Laws/Traversal.lean ====
section
/-! SUPPORT. The arithmetic of addresses and of the traversal order (rules R32, R35, R85, R86), and what one controller step
does to a traversal. -/

namespace Sys2Proof.Machine

/-! ## Addresses -/

theorem idx_lt {x y c w h : Nat} (hx : x < w) (hy : y < h) (hc : c < 3) : idx x y c w < 3 * w * h := by
  have h1 : y * w + x + 1 ≤ h * w := by
    calc y * w + x + 1 ≤ y * w + w := by omega
      _ = (y + 1) * w := by ring
      _ ≤ h * w := Nat.mul_le_mul_right w hy
  have h2 : 3 * w * h = h * w * 3 := by ring
  simp only [idx]
  omega

theorem idx_inj {x y c x' y' c' w : Nat} (hx : x < w) (hx' : x' < w) (hc : c < 3) (hc' : c' < 3)
    (h : idx x y c w = idx x' y' c' w) : x = x' ∧ y = y' ∧ c = c' := by
  simp only [idx] at h
  have hxy : y * w + x = y' * w + x' := by omega
  have hyy : y = y' := by
    have h1 : (y * w + x) / w = y := by
      rw [Nat.mul_comm, Nat.mul_add_div (by omega), Nat.div_eq_of_lt hx, Nat.add_zero]
    have h2 : (y' * w + x') / w = y' := by
      rw [Nat.mul_comm, Nat.mul_add_div (by omega), Nat.div_eq_of_lt hx', Nat.add_zero]
    rw [← h1, ← h2, hxy]
  subst hyy
  omega

/-- Whatever the position and width registers hold, the address is inside the 34-bit space (rule R35). -/
theorem State.addr_lt (s : State) : s.addr < Config.addrLimit := by
  have hx := s.x.isLt
  have hc := s.c.isLt
  have h : s.y.toNat * s.aW.toNat ≤ 65535 * 65535 := Nat.mul_le_mul (by have := s.y.isLt; omega) (by have := s.aW.isLt; omega)
  simp only [State.addr, idx, Config.addrLimit]
  omega

/-! ## The traversal order -/

theorem posAt_of_index {x y c h : Nat} (hy : y < h) (hc : c < 3) : posAt h (3 * (x * h + y) + c) = (x, y, c) := by
  have h3 : (3 * (x * h + y) + c) / 3 = x * h + y := by omega
  have hdiv : (x * h + y) / h = x := by
    rw [Nat.mul_comm, Nat.mul_add_div (by omega), Nat.div_eq_of_lt hy, Nat.add_zero]
  have hmod : (x * h + y) % h = y := by
    rw [Nat.mul_comm, Nat.mul_add_mod, Nat.mod_eq_of_lt hy]
  simp only [posAt, ← Nat.div_div_eq_div_mul, h3, hdiv, hmod]
  congr 2
  omega

theorem index_of_posAt {h k x y c : Nat} (hp : (x, y, c) = posAt h k) : k = 3 * (x * h + y) + c := by
  simp only [posAt, ← Nat.div_div_eq_div_mul, Prod.mk.injEq] at hp
  obtain ⟨rfl, rfl, rfl⟩ := hp
  have h1 := Nat.div_add_mod (k / 3) h
  have h2 : k / 3 / h * h = h * (k / 3 / h) := Nat.mul_comm _ _
  omega

theorem posAt_bounds {w h k : Nat} (hk : k < 3 * w * h) :
    k / (3 * h) < w ∧ k / 3 % h < h ∧ k % 3 < 3 := by
  have hh : 0 < h := Nat.pos_of_ne_zero (by rintro rfl; simp at hk)
  refine ⟨(Nat.div_lt_iff_lt_mul (by omega)).2 ?_, Nat.mod_lt _ hh, Nat.mod_lt _ (by omega)⟩
  rw [show w * (3 * h) = 3 * w * h by ring]
  exact hk

theorem addrAt_lt {w h k : Nat} (hk : k < 3 * w * h) : addrAt w h k < 3 * w * h :=
  let ⟨hx, hy, hc⟩ := posAt_bounds hk
  idx_lt hx hy hc

theorem addrAt_inj {w h j k : Nat} (hj : j < 3 * w * h) (hk : k < 3 * w * h) (he : addrAt w h j = addrAt w h k) :
    j = k := by
  obtain ⟨hx, -, hc⟩ := posAt_bounds hj
  obtain ⟨hx', -, hc'⟩ := posAt_bounds hk
  obtain ⟨h1, h2, h3⟩ := idx_inj hx hx' hc hc' he
  have hj' := index_of_posAt (h := h) (k := j) rfl
  have hk' := index_of_posAt (h := h) (k := k) rfl
  rw [hj', hk', h1, h2, h3]

theorem addrAt_of_index {x y c w h : Nat} (hy : y < h) (hc : c < 3) :
    addrAt w h (3 * (x * h + y) + c) = idx x y c w := by
  have := posAt_of_index (x := x) hy hc
  simp only [posAt, Prod.mk.injEq] at this
  simp only [addrAt, this]

/-- Every address below `3*W*H` is the address of a step (rule R86). -/
theorem addrAt_surj {w h a : Nat} (ha : a < 3 * w * h) : ∃ k < 3 * w * h, addrAt w h k = a := by
  have hw : 0 < w := Nat.pos_of_ne_zero (by rintro rfl; simp at ha)
  have hy : a / 3 / w < h := by
    rw [Nat.div_div_eq_div_mul]
    exact (Nat.div_lt_iff_lt_mul (by omega)).2 (by rw [Nat.mul_comm]; exact ha)
  have hx : a / 3 % w < w := Nat.mod_lt _ hw
  have hc : a % 3 < 3 := Nat.mod_lt _ (by omega)
  refine ⟨3 * (a / 3 % w * h + a / 3 / w) + a % 3, ?_, ?_⟩
  · have h1 : a / 3 % w * h + a / 3 / w + 1 ≤ w * h := by
      calc a / 3 % w * h + a / 3 / w + 1 ≤ a / 3 % w * h + h := by omega
        _ = (a / 3 % w + 1) * h := by ring
        _ ≤ w * h := Nat.mul_le_mul_right h hx
    have h2 : 3 * w * h = 3 * (w * h) := by ring
    omega
  · rw [addrAt_of_index hy hc]
    have h1 := Nat.div_add_mod (a / 3) w
    have h2 : a / 3 / w * w = w * (a / 3 / w) := Nat.mul_comm _ _
    simp only [idx]
    omega

/-! ## The mask and the end of a controller step -/

theorem mask?_eq_some {n : Nat} {m : Byte} :
    mask? n = some m ↔ (1 ≤ n ∧ n ≤ 8) ∧ BitVec.ofNat 8 ((1 <<< n) - 1) = m := by
  simp [mask?]

theorem State.mask?_isSome {s : State} : s.mask?.isSome = true ↔ s.NLegal := by
  simp [State.mask?, Sys2Proof.Machine.mask?, State.NLegal, Option.isSome_iff_exists]

theorem State.exists_mask {s : State} (h : s.NLegal) : ∃ m, s.mask? = some m :=
  Option.isSome_iff_exists.1 (State.mask?_isSome.2 h)

theorem State.nLegal_of_mask {s : State} {m : Byte} (h : s.mask? = some m) : s.NLegal :=
  State.mask?_isSome.1 (by simp [h])

theorem controllerStep_of_mask {s : State} {m : Byte} (h : s.mask? = some m) :
    controllerStep s = .next (s.writeChannel m).advance := by
  simp [controllerStep, h]

/-- Everything a controller step can answer, if it answers a next state. -/
theorem controllerStep_next {s t : State} (h : controllerStep s = .next t) :
    ∃ m, s.mask? = some m ∧ t = (s.writeChannel m).advance := by
  unfold controllerStep at h
  split at h
  · cases h
  · next m hm => exact ⟨m, hm, by simpa using h.symm⟩

theorem State.advance_last {s : State} (h : s.LastChannel) : s.advance = s.finish := if_pos h

theorem State.advance_not_last {s : State} (h : ¬s.LastChannel) : s.advance = s.nextPos := if_neg h

@[simp] theorem State.advance_nsig (s : State) : s.advance.nsig = s.nsig := by
  unfold State.advance
  split_ifs <;> simp
@[simp] theorem State.advance_aW (s : State) : s.advance.aW = s.aW := by
  unfold State.advance
  split_ifs <;> simp
@[simp] theorem State.advance_aH (s : State) : s.advance.aH = s.aH := by
  unfold State.advance
  split_ifs <;> simp
@[simp] theorem State.advance_bW (s : State) : s.advance.bW = s.bW := by
  unfold State.advance
  split_ifs <;> simp
@[simp] theorem State.advance_bH (s : State) : s.advance.bH = s.bH := by
  unfold State.advance
  split_ifs <;> simp
@[simp] theorem State.advance_err (s : State) : s.advance.err = s.err := by
  unfold State.advance
  split_ifs <;> simp
@[simp] theorem State.advance_errinfo (s : State) : s.advance.errinfo = s.errinfo := by
  unfold State.advance
  split_ifs <;> simp
@[simp] theorem State.advance_opl (s : State) : s.advance.opl = s.opl := by
  unfold State.advance
  split_ifs <;> simp
@[simp] theorem State.advance_memA (s : State) : s.advance.memA = s.memA := by
  unfold State.advance
  split_ifs <;> simp
@[simp] theorem State.advance_memB (s : State) : s.advance.memB = s.memB := by
  unfold State.advance
  split_ifs <;> simp
@[simp] theorem State.advance_memO (s : State) : s.advance.memO = s.memO := by
  unfold State.advance
  split_ifs <;> simp
@[simp] theorem State.advance_abandons (s : State) : s.advance.abandons = s.abandons := by
  unfold State.advance
  split_ifs <;> simp
@[simp] theorem State.advance_script (s : State) : s.advance.script = s.script := by
  unfold State.advance
  split_ifs <;> simp
@[simp] theorem State.advance_log (s : State) : s.advance.log = s.log := by
  unfold State.advance
  split_ifs <;> simp

/-! ## A controller step of a running traversal -/

theorem toNat_zero : (0 : Word).toNat = 0 := rfl
theorem toNat_one : (1 : Word).toNat = 1 := rfl
theorem toNat_zero2 : (0 : BitVec 2).toNat = 0 := rfl

/-- With the position of step `k`, the channel is the last exactly when `k` is the last step number. -/
theorem State.lastChannel_iff {s : State} {k : Nat} (hc : s.c.toNat ≤ 2) (hy : s.y.toNat < s.aH.toNat)
    (hx : s.x.toNat < s.aW.toNat) (hp : (s.x.toNat, s.y.toNat, s.c.toNat) = posAt s.aH.toNat k) :
    s.LastChannel ↔ k + 1 = s.gridBytes := by
  have hk := index_of_posAt hp
  have hc2 : s.c = 2 ↔ s.c.toNat = 2 := by rw [← BitVec.toNat_inj]; simp
  have hg : s.gridBytes = 3 * (s.aW.toNat * s.aH.toNat) := by simp only [State.gridBytes]; ring
  rw [State.LastChannel, hc2, hg, hk]
  obtain ⟨d, hd⟩ : ∃ d, s.aW.toNat = s.x.toNat + 1 + d := ⟨s.aW.toNat - (s.x.toNat + 1), by omega⟩
  have hmul : s.aW.toNat * s.aH.toNat = s.x.toNat * s.aH.toNat + s.aH.toNat + d * s.aH.toNat := by rw [hd]; ring
  rw [hmul]
  constructor
  · rintro ⟨h1, h2, h3⟩
    have : d = 0 := by omega
    subst this
    omega
  · intro h
    have hd0 : d = 0 := by
      by_contra hne
      have : s.aH.toNat ≤ d * s.aH.toNat := Nat.le_mul_of_pos_left _ (by omega)
      omega
    subst hd0
    omega

/-- The advance function goes from the position of step `k` to the position of step `k + 1` (rules R85, R86). -/
theorem State.nextPos_position {s : State} {k : Nat} (hc : s.c.toNat ≤ 2) (hy : s.y.toNat < s.aH.toNat)
    (hx : s.x.toNat < s.aW.toNat) (hp : (s.x.toNat, s.y.toNat, s.c.toNat) = posAt s.aH.toNat k)
    (hl : ¬s.LastChannel) :
    (s.nextPos.x.toNat, s.nextPos.y.toNat, s.nextPos.c.toNat) = posAt s.aH.toNat (k + 1) ∧
      s.nextPos.x.toNat < s.aW.toNat ∧ s.nextPos.y.toNat < s.aH.toNat ∧ s.nextPos.c.toNat ≤ 2 := by
  have hk := index_of_posAt hp
  have hW := s.aW.isLt
  have hH := s.aH.isLt
  unfold State.nextPos
  split_ifs with h1 h2
  · have hc1 : (s.c + 1).toNat = s.c.toNat + 1 := by
      rw [BitVec.toNat_add, show (1 : BitVec 2).toNat = 1 from rfl]; omega
    simp only [State.setPos_x, State.setPos_y, State.setPos_c, hc1]
    refine ⟨?_, hx, hy, by omega⟩
    rw [hk, Nat.add_assoc, posAt_of_index hy (by omega)]
  · have hy1 : (s.y + 1).toNat = s.y.toNat + 1 := by
      rw [BitVec.toNat_add, toNat_one]; omega
    simp only [State.setPos_x, State.setPos_y, State.setPos_c, hy1, toNat_zero2]
    refine ⟨?_, hx, h2, by omega⟩
    rw [hk, ← posAt_of_index (x := s.x.toNat) h2 (show 0 < 3 by omega)]
    congr 1
    omega
  · have hc2 : s.c = 2 := by rw [← BitVec.toNat_inj]; show s.c.toNat = 2; omega
    have hyH : s.y.toNat + 1 = s.aH.toNat := by omega
    have hxW : s.x.toNat + 1 < s.aW.toNat := by
      by_contra hge
      exact hl ⟨by omega, hyH, hc2⟩
    have hx1 : (s.x + 1).toNat = s.x.toNat + 1 := by
      rw [BitVec.toNat_add, toNat_one]; omega
    simp only [State.setPos_x, State.setPos_y, State.setPos_c, hx1, toNat_zero, toNat_zero2]
    refine ⟨?_, hxW, by omega, by omega⟩
    rw [hk, ← posAt_of_index (x := s.x.toNat + 1) (show 0 < s.aH.toNat by omega) (show 0 < 3 by omega)]
    congr 1
    have : (s.x.toNat + 1) * s.aH.toNat = s.x.toNat * s.aH.toNat + s.aH.toNat := by ring
    omega

/-- The address of a traversal's step `k` is the address the position registers give (rule R87). -/
theorem State.addr_of_position {s : State} {k : Nat}
    (hp : (s.x.toNat, s.y.toNat, s.c.toNat) = posAt s.aH.toNat k) : s.addr = addrAt s.aW.toNat s.aH.toNat k := by
  simp only [posAt, Prod.mk.injEq] at hp
  simp [State.addr, addrAt, hp]

/-- The write of step `k` settles one more address of O and leaves the others. -/
theorem State.TraversedTo.write {s : State} {k : Nat} {m : Byte} (h : s.TraversedTo k) (hk : k < s.gridBytes)
    (hm : s.mask? = some m) :
    (∀ j < k + 1, Memory.peek? (s.writeChannel m).memO (addrAt s.aW.toNat s.aH.toNat j)
      = s.finalByte? (addrAt s.aW.toNat s.aH.toNat j)) ∧
    (∀ a, (∀ j < k + 1, addrAt s.aW.toNat s.aH.toNat j ≠ a) →
      Memory.peek? (s.writeChannel m).memO a = Memory.peek? s.oldO a) := by
  obtain ⟨hp, hdone, hrest⟩ := h
  have ha := State.addr_of_position hp
  constructor
  · intro j hj
    rw [State.writeChannel_memO, Memory.peek?_poke]
    by_cases hjk : j = k
    · subst hjk
      rw [if_pos ha, ha]
      simp [State.finalByte?, hm]
    · rw [if_neg, hdone j (by omega)]
      intro he
      exact hjk (addrAt_inj (w := s.aW.toNat) (h := s.aH.toNat) (by unfold State.gridBytes at hk; omega)
        (by unfold State.gridBytes at hk; omega) (ha ▸ he).symm)
  · intro a hne
    rw [State.writeChannel_memO, Memory.peek?_poke, if_neg, hrest a fun j hj => hne j (by omega)]
    rw [ha]
    exact hne k (by omega)

end Sys2Proof.Machine
end

