-- ==== Sys2Proof/Laws/Step.lean ====
section
/-! SUPPORT. Everything a command, a host step and a step can do, said once: proofs about all steps cite these. -/

namespace Sys2Proof.Machine

/-! ## Commands -/

theorem State.startTraversal_empty {s : State} (op : Operation) (h : s.EmptyGrid) :
    s.startTraversal op = { (s.setOutcome .done .noError 0).setPos 0 0 0 with opl := op } := if_pos h

theorem State.startTraversal_busy {s : State} (op : Operation) (h : ¬s.EmptyGrid) :
    s.startTraversal op = { (s.setOutcome .busy .noError 0).setPos 0 0 0 with opl := op, oldO := s.memO } := if_neg h

theorem State.unlessBusy_of_busy {s : State} (t : State) (h : s.state = .busy) : s.unlessBusy t = s := if_pos h

theorem State.unlessBusy_of_not_busy {s : State} (t : State) (h : s.state ≠ .busy) : s.unlessBusy t = t := if_neg h

/-- What acceptance can leave (rules R81, R107): an error entered, or a traversal started. -/
inductive Accepted (s : State) : State → Prop where
  | raised (e : ErrCode) (info : Word) (he : e ≠ .noError)
      (hi : info ≠ 0 → e = .invalidConfiguration ∨ e = .illegalCommand) : Accepted s (s.raiseError e info)
  | started (op : Operation) (hn : s.NLegal) (hd : op = .embed → s.DimsMatch) : Accepted s (s.startTraversal op)

theorem State.accepted_checkN {s t : State} (h : s.NLegal → Accepted s t) : Accepted s (s.checkN t) := by
  unfold State.checkN
  split_ifs with hn
  · exact h hn
  · exact .raised _ _ (by decide) fun _ => .inl rfl

theorem State.accepted_checkDims {s t : State} (h : s.DimsMatch → Accepted s t) : Accepted s (s.checkDims t) := by
  unfold State.checkDims
  split_ifs with hd
  · exact h hd
  · exact .raised _ _ (by decide) fun h => absurd rfl h

/-- Everything a command word can do: it always answers a next state; while BUSY nothing, else acceptance. -/
theorem issueCommand_next {v : Word} {s t : State} (h : issueCommand v s = .next t) :
    (s.state = .busy ∧ t = s) ∨ (s.state ≠ .busy ∧ Accepted s t) := by
  by_cases hb : s.state = .busy
  · left
    unfold issueCommand at h
    split at h
    · next i _ => cases i <;> simpa [exec, execEmbed, execExtract, State.unlessBusy, hb, eq_comm] using h
    · simpa [State.rejectWord, State.unlessBusy, hb, eq_comm] using h
  · right
    refine ⟨hb, ?_⟩
    unfold issueCommand at h
    split at h
    · next i _ =>
      cases i
      · obtain rfl : s.checkN (s.checkDims (s.startTraversal .embed)) = t := by
          simpa [exec, execEmbed, State.unlessBusy, hb] using h
        exact State.accepted_checkN fun hn => State.accepted_checkDims fun hd => .started _ hn fun _ => hd
      · obtain rfl : s.checkN (s.startTraversal .extract) = t := by
          simpa [exec, execExtract, State.unlessBusy, hb] using h
        exact State.accepted_checkN fun hn => .started _ hn (by simp)
    · next w _ =>
      obtain rfl : s.raiseError .illegalCommand w = t := by
        simpa [State.rejectWord, State.unlessBusy, hb] using h
      exact .raised _ _ (by decide) fun _ => .inr rfl

/-- A command word never stops the machine. -/
theorem issueCommand_total (v : Word) (s : State) : ∃ t, issueCommand v s = .next t := by
  unfold issueCommand
  split
  · next i _ => cases i <;> exact ⟨_, rfl⟩
  · exact ⟨_, rfl⟩

/-! ## Host steps -/

/-- What one host step can do, if it answers a next state. -/
inductive HostDid (s : State) : HostOp → State → Prop where
  | reset (we re : Bool) (i : RegIdx) (v : Word) : HostDid s (.port true we re i v) s.assertReset
  | command (i : RegIdx) (v : Word) (t : State) (hi : Reg.ofIdx i = .cmd) (h : issueCommand v s = .next t) :
      HostDid s (.port false true false i v) t
  | wrote (i : RegIdx) (v : Word) (hi : Reg.ofIdx i ≠ .cmd) :
      HostDid s (.port false true false i v) (s.unlessBusy (s.writeConfig v (Reg.ofIdx i)))
  | readReg (i : RegIdx) (v : Word) :
      HostDid s (.port false false true i v) (readRegStep (Reg.ofIdx i) s)
  | noAccess (i : RegIdx) (v : Word) : HostDid s (.port false false false i v) s
  | filled (sp : Space) (a : Nat) (bs : List Byte) (hb : s.state ≠ .busy) (ha : a + bs.length ≤ Config.addrLimit) :
      HostDid s (.fill sp a bs) (s.setMem (Memory.pokeAll (s.mem sp) a bs) sp)
  | dumped (sp : Space) (a n : Nat) (hb : ¬(s.state = .busy ∧ sp = .O)) (ha : a + n ≤ Config.addrLimit) :
      HostDid s (.dump sp a n) (s.record (.bytes sp a (Memory.readBytes sp (s.mem sp) a n)))
  | waited : HostDid s .wait (waitStep s)

theorem hostStep_next {op : HostOp} {s t : State} (h : hostStep op s = .next t) : HostDid s op t := by
  cases op with
  | port rst we re i v =>
    cases rst
    · cases we
      · cases re
        · obtain rfl : s = t := by simpa [hostStep, portStep] using h
          exact .noAccess i v
        · obtain rfl : readRegStep (Reg.ofIdx i) s = t := by simpa [hostStep, portStep] using h
          exact .readReg i v
      · cases re
        · have h' : writeReg (Reg.ofIdx i) v s = .next t := by simpa [hostStep, portStep] using h
          by_cases hc : Reg.ofIdx i = .cmd
          · exact .command i v t hc (by simpa [writeReg, hc] using h')
          · obtain rfl : s.unlessBusy (s.writeConfig v (Reg.ofIdx i)) = t := by
              unfold writeReg at h'
              split at h'
              · next he => exact absurd he hc
              · simpa using h'
            exact .wrote i v hc
        · simp [hostStep, portStep] at h
    · obtain rfl : s.assertReset = t := by simpa [hostStep, portStep] using h
      exact .reset we re i v
  | fill sp a bs =>
    simp only [hostStep, fillStep] at h
    split_ifs at h with hb ha
    obtain rfl : _ = t := by simpa using h
    exact .filled sp a bs hb ha
  | dump sp a n =>
    simp only [hostStep, dumpStep] at h
    split_ifs at h with hb ha
    obtain rfl : _ = t := by simpa using h
    exact .dumped sp a n hb ha
  | wait =>
    obtain rfl : waitStep s = t := by simpa [hostStep] using h
    exact .waited

/-! ## Steps -/

/-- Everything a step can do, if it answers a next state. -/
inductive Stepped (s : State) : State → Prop where
  | stayed (hb : s.state ≠ .busy) (hs : s.script = []) : Stepped s s
  | controller (m : Byte) (hb : s.state = .busy) (hm : s.mask? = some m) :
      Stepped s (s.tick.writeChannel m).advance
  | host (l : ScriptLine) (rest : List ScriptLine) (t : State) (hs : s.script = l :: rest)
      (hb : s.state = .busy → l.holdsBack = false) (h : HostDid { s with script := rest } l.op t) : Stepped s t

theorem step_next {s t : State} (h : step s = .next t) : Stepped s t := by
  unfold step at h
  rcases hscript : s.script with _ | ⟨l, rest⟩
  · by_cases hb : s.state = .busy
    · simp only [State.nextMove, hscript, hb, if_true] at h
      obtain ⟨m, hm, rfl⟩ := controllerStep_next h
      exact .controller m hb hm
    · simp only [State.nextMove, hscript, hb, if_false] at h
      obtain rfl : s = t := by simpa using h
      exact .stayed hb hscript
  · by_cases hb : s.state = .busy ∧ l.holdsBack = true
    · simp only [State.nextMove, hscript, hb, and_self, if_true] at h
      obtain ⟨m, hm, rfl⟩ := controllerStep_next h
      exact .controller m hb.1 hm
    · simp only [State.nextMove, hscript, hb, if_false] at h
      exact .host l rest t hscript (fun hbusy => by simpa [hbusy] using hb) (hostStep_next h)

/-! ## Runs -/

theorem core_run_succ {s t : State} (h : step s = .next t) (k : Nat) : core.run (k + 1) s = core.run k t := by
  have h' : core.step s = .next t := h
  simp only [Host.Core.run, h']

/-- A host that keeps its duty for the rest of a traversal keeps it after one more step. -/
theorem State.HostKeepsDuty.step {s t : State} (hd : s.HostKeepsDuty) (hb : s.state = .busy)
    (h : Sys2Proof.Machine.step s = .next t) : t.HostKeepsDuty := by
  intro k u hr hbu op rest hm
  refine hd (k + 1) u (by rw [core_run_succ h, hr]) (fun j hj v hv => ?_) op rest hm
  cases j with
  | zero => cases hv; exact hb
  | succ j => exact hbu j (by omega) v (by rw [← core_run_succ h, hv])

/-! ## Reset -/

theorem State.assertReset_of_not_busy {s : State} (h : s.state ≠ .busy) : s.assertReset = s.resetBlock := if_neg h

theorem State.assertReset_of_busy {s : State} (h : s.state = .busy) : s.assertReset = s.abandon.resetBlock := if_pos h

theorem State.wf_abandonedO {s : State} {m : Byte} (hO : Memory.wf s.memO = true) {n : Nat}
    (hn : n ≤ Config.addrLimit) : Memory.wf (s.abandonedO m n) = true := by
  induction n with
  | zero => exact hO
  | succ n ih =>
    unfold State.abandonedO
    split_ifs
    · exact Memory.wf_poke _ (ih (by omega)) (by omega)
    · exact Memory.wf_setCell _ (ih (by omega)) (by omega)

/-- Each byte of the grid is settled one way or the other, and the others stay (rule R122). -/
theorem State.peek?_abandonedO {s : State} {m : Byte} (hO : Memory.wf s.memO = true) {n : Nat}
    (hn : n ≤ Config.addrLimit) (a : Nat) :
    Memory.peek? (s.abandonedO m n) a =
      if a < n then
        if Config.abandonedFinal s.abandons a then some (s.channelOut m a) else Memory.peek? s.oldO a
      else Memory.peek? s.memO a := by
  induction n with
  | zero => simp [State.abandonedO]
  | succ n ih =>
    have ih := ih (by omega)
    have hwf := State.wf_abandonedO (m := m) hO (show n ≤ Config.addrLimit by omega)
    unfold State.abandonedO
    by_cases han : a = n
    · subst han
      split_ifs <;> simp_all [Memory.peek?_setCell]
    · have hlt : a < n + 1 ↔ a < n := by omega
      simp only [hlt]
      split_ifs <;> simp_all [Memory.peek?_setCell, Memory.peek?_poke, Ne.symm han]

theorem State.gridBytes_le (s : State) : s.gridBytes ≤ Config.addrLimit := by
  have h : s.aW.toNat * s.aH.toNat ≤ 65535 * 65535 :=
    Nat.mul_le_mul (by have := s.aW.isLt; omega) (by have := s.aH.isLt; omega)
  simp only [State.gridBytes, Config.addrLimit, Nat.mul_assoc]
  omega

end Sys2Proof.Machine
end

