-- ==== Sys2Proof/Laws/Commands.lean ====
section
/-! SUPPORT. The two commands as one choice each, the state a traversal starts from, and a controller step of a running
traversal: what proofs about commands and traversals cite. -/

namespace Sys2Proof.Machine

/-! ## The commands -/

theorem exec_embed_eq {s : State} (hb : s.state ≠ .busy) :
    exec .embed s = .next (
      if s.NLegal then (if s.DimsMatch then s.startTraversal .embed else s.raiseError .dimensionMismatch 0)
      else s.raiseError .invalidConfiguration s.nsig) := by
  rw [exec, execEmbed, State.unlessBusy_of_not_busy _ hb]
  rfl

theorem exec_extract_eq {s : State} (hb : s.state ≠ .busy) :
    exec .extract s = .next (
      if s.NLegal then s.startTraversal .extract else s.raiseError .invalidConfiguration s.nsig) := by
  rw [exec, execExtract, State.unlessBusy_of_not_busy _ hb]
  rfl

theorem exec_of_busy (i : Instr) {s : State} (hb : s.state = .busy) : exec i s = .next s := by
  cases i <;> exact congrArg _ (State.unlessBusy_of_busy _ hb)

/-! ## The state a traversal starts from -/

@[simp] theorem State.startTraversal_nsig (s : State) (op : Operation) : (s.startTraversal op).nsig = s.nsig := by
  unfold State.startTraversal
  split_ifs <;> rfl
@[simp] theorem State.startTraversal_aW (s : State) (op : Operation) : (s.startTraversal op).aW = s.aW := by
  unfold State.startTraversal
  split_ifs <;> rfl
@[simp] theorem State.startTraversal_aH (s : State) (op : Operation) : (s.startTraversal op).aH = s.aH := by
  unfold State.startTraversal
  split_ifs <;> rfl
@[simp] theorem State.startTraversal_bW (s : State) (op : Operation) : (s.startTraversal op).bW = s.bW := by
  unfold State.startTraversal
  split_ifs <;> rfl
@[simp] theorem State.startTraversal_bH (s : State) (op : Operation) : (s.startTraversal op).bH = s.bH := by
  unfold State.startTraversal
  split_ifs <;> rfl
@[simp] theorem State.startTraversal_err (s : State) (op : Operation) : (s.startTraversal op).err = .noError := by
  unfold State.startTraversal
  split_ifs <;> rfl
@[simp] theorem State.startTraversal_errinfo (s : State) (op : Operation) : (s.startTraversal op).errinfo = 0 := by
  unfold State.startTraversal
  split_ifs <;> rfl
@[simp] theorem State.startTraversal_opl (s : State) (op : Operation) : (s.startTraversal op).opl = op := by
  unfold State.startTraversal
  split_ifs <;> rfl
@[simp] theorem State.startTraversal_memA (s : State) (op : Operation) : (s.startTraversal op).memA = s.memA := by
  unfold State.startTraversal
  split_ifs <;> rfl
@[simp] theorem State.startTraversal_memB (s : State) (op : Operation) : (s.startTraversal op).memB = s.memB := by
  unfold State.startTraversal
  split_ifs <;> rfl
@[simp] theorem State.startTraversal_memO (s : State) (op : Operation) : (s.startTraversal op).memO = s.memO := by
  unfold State.startTraversal
  split_ifs <;> rfl
@[simp] theorem State.startTraversal_abandons (s : State) (op : Operation) :
    (s.startTraversal op).abandons = s.abandons := by
  unfold State.startTraversal
  split_ifs <;> rfl
@[simp] theorem State.startTraversal_script (s : State) (op : Operation) : (s.startTraversal op).script = s.script := by
  unfold State.startTraversal
  split_ifs <;> rfl
@[simp] theorem State.startTraversal_log (s : State) (op : Operation) : (s.startTraversal op).log = s.log := by
  unfold State.startTraversal
  split_ifs <;> rfl

/-- An accepted command is DONE on an empty grid, else BUSY: never an error (rule R94). -/
theorem State.startTraversal_state (s : State) (op : Operation) :
    (s.startTraversal op).state = if s.EmptyGrid then .done else .busy := by
  unfold State.startTraversal
  split_ifs <;> rfl

/-- Before its first step a traversal has settled no address. -/
theorem State.startTraversal_traversedTo {s : State} (op : Operation) (he : ¬s.EmptyGrid) :
    (s.startTraversal op).TraversedTo 0 := by
  rw [State.startTraversal_busy op he]
  exact ⟨by simp [posAt], by simp, fun _ _ => rfl⟩

/-! ## A controller step of a running traversal -/

/-- What every controller step keeps (rules R84, R92). -/
theorem controllerStep_keeps {s t : State} (h : controllerStep s = .next t) :
    t.nsig = s.nsig ∧ t.aW = s.aW ∧ t.aH = s.aH ∧ t.bW = s.bW ∧ t.bH = s.bH ∧ t.err = s.err ∧ t.errinfo = s.errinfo ∧
    t.opl = s.opl ∧ t.memA = s.memA ∧ t.memB = s.memB ∧ t.abandons = s.abandons ∧ t.script = s.script ∧ t.log = s.log := by
  obtain ⟨m, -, rfl⟩ := controllerStep_next h
  simp

/-- `j + k` controller steps are `j` of them and then `k`. -/
theorem controllerSteps_add {s t : State} (j k : Nat) (h : controllerSteps j s = .next t) :
    controllerSteps (j + k) s = controllerSteps k t := by
  induction j generalizing s with
  | zero => simp_all [controllerSteps]
  | succ j ih =>
    rw [show j + 1 + k = (j + k) + 1 by omega]
    simp only [controllerSteps] at h ⊢
    cases hc : controllerStep s <;> simp_all

end Sys2Proof.Machine
end

