-- ==== Sys2Proof/Laws/Datapath.lean ====
section
/-! SUPPORT. What the mask, the merge and the split are, bit by bit (rules R61, R64, R70, R74). -/

namespace Sys2Proof.Machine

/-- The eight masks (rule R63): the mask is defined exactly at these. -/
theorem mask?_cases {n : Nat} {m : Byte} (h : mask? n = some m) :
    (n = 1 ∧ m = 1) ∨ (n = 2 ∧ m = 3) ∨ (n = 3 ∧ m = 7) ∨ (n = 4 ∧ m = 15) ∨ (n = 5 ∧ m = 31) ∨ (n = 6 ∧ m = 63) ∨
    (n = 7 ∧ m = 127) ∨ (n = 8 ∧ m = 255) := by
  obtain ⟨⟨h1, h2⟩, rfl⟩ := mask?_eq_some.1 h
  interval_cases n <;> simp

theorem complement_eq_not : ∀ m : Byte, complement m = ~~~m := by decide

theorem nmask?_eq_not {n : Nat} {m nm : Byte} (h : mask? n = some m) (h' : nmask? n = some nm) : nm = ~~~m := by
  simpa [nmask?, h, complement_eq_not, eq_comm] using h'

theorem mask?_getLsbD {n i : Nat} {m : Byte} (h : mask? n = some m) (hi : i < 8) : m.getLsbD i = decide (i < n) := by
  rcases mask?_cases h with h | h | h | h | h | h | h | h <;> obtain ⟨rfl, rfl⟩ := h <;> interval_cases i <;> rfl

theorem embedCh_getLsbD {n i : Nat} {m : Byte} (h : mask? n = some m) (a p : Byte) (hi : i < 8) :
    (embedCh a p m).getLsbD i = if i < n then p.getLsbD i else a.getLsbD i := by
  simp only [embedCh, complement_eq_not, BitVec.getLsbD_or, BitVec.getLsbD_and, BitVec.getLsbD_not, mask?_getLsbD h hi, hi]
  by_cases hin : i < n <;> simp [hin]

theorem extractCh_toNat {n : Nat} {m : Byte} (h : mask? n = some m) (p : Byte) :
    (extractCh p m).toNat = p.toNat % 2 ^ n := by
  have hm : m.toNat = 2 ^ n - 1 := by
    rcases mask?_cases h with h | h | h | h | h | h | h | h <;> obtain ⟨rfl, rfl⟩ := h <;> rfl
  rw [extractCh, BitVec.toNat_and, hm, Nat.and_two_pow_sub_one_eq_mod]

end Sys2Proof.Machine
end

