-- ==== Sys2Proof/Laws/PerInstr.lean ====
section
/-! SUPPORT. What holds of every command as syntax: it is well-formed, and the decoder reads it back from its word, as a word
and as the opcode table numbers its bits. -/

namespace Sys2Proof.Laws.RoundTrip

def Statement (i : Instr) : Prop :=
  i.wellFormed = true ∧ decode (encode i) = .ok i ∧ decodeTableWord 16 (encode i).toNat = some i

theorem embed : Statement .embed := ⟨rfl, rfl, rfl⟩

theorem extract : Statement .extract := ⟨rfl, rfl, rfl⟩

end Sys2Proof.Laws.RoundTrip
end

