-- ==== Sys2Proof/Tests/Slice0.lean ====
section
/-! SUPPORT. Tests of single steps, with expected values from the spec's own tables and examples (95_test_vectors.md), and for
each statement with hypotheses a concrete state that meets them. -/

open Sys2Proof Sys2Proof.Machine

namespace Sys2Proof.Tests

/-- A block out of reset with N and the four dimensions written, and the pixels of example S5 in A and B. -/
def small (n aw ah bw bh : Word) : State :=
  { State.reset with
    nsig := n, aW := aw, aH := ah, bW := bw, bH := bh,
    memA := [(0, 200), (1, 100), (2, 50)], memB := [(0, 10), (1, 20), (2, 30)] }

/-- One pixel, as in example S5 (program P1 before its command). -/
def onePixel : State := small 2 1 1 1 1

/-- The same block with a traversal of one pixel just accepted. -/
def running (op : Operation) : State := { onePixel with state := .busy, opl := op }

/-- The EMBED traversal of one pixel before its last channel. -/
def lastChannel : State := { running .embed with c := 2, memO := [(0, 202), (1, 100)] }

/-- The one-pixel block after EMBED (the end state of program P1). -/
def embedded : State := { onePixel with state := .done, memO := [(0, 202), (1, 100), (2, 50)] }

/-- A block that has rejected a command: N = 9 (the fourth step of program P4). -/
def rejected : State := { small 9 1 1 2 1 with state := .error, err := .invalidConfiguration, errinfo := 9 }

/-- The host's next line. -/
def before (s : State) (delay : Nat) (op : HostOp) : State := { s with script := [⟨delay, op⟩] }

/-! ## Well-formedness: an ill-formed term for each check, and its neighbour -/

/-- U9: both strobes. -/
theorem test_both_strobes_refused : (HostOp.port false true true 0 0).wellFormed = false := by decide
/-- R121: reset overrides them. -/
theorem test_both_strobes_under_reset : (HostOp.port true true true 0 0).wellFormed = true := by decide
/-- R30: a byte beyond address 2^34 - 1. -/
theorem test_fill_beyond_space : (HostOp.fill .A 17179869183 [1, 2]).wellFormed = false := by decide
theorem test_fill_last_byte : (HostOp.fill .A 17179869183 [1]).wellFormed = true := by decide
theorem test_dump_beyond_space : (HostOp.dump .O 17179869184 1).wellFormed = false := by decide
theorem test_dump_last_byte : (HostOp.dump .O 17179869183 1).wellFormed = true := by decide

/-! ## Decoding: the words of rule R53, bit by bit -/

theorem test_decode_embed : decode 0b0000000000000001 = .ok .embed := rfl
theorem test_decode_extract : decode 0b0000000000000010 = .ok .extract := rfl
/-- R54: the reserved words the rule names. -/
theorem test_decode_reserved :
    decode 0b0000000000000000 = .error (.reservedWord 0x0000) ∧ decode 0b0000000000000011 = .error (.reservedWord 0x0003) ∧
    decode 0b1111111111111111 = .error (.reservedWord 0xFFFF) := ⟨rfl, rfl, rfl⟩
theorem test_table_words : decodeTableWord 16 1 = some .embed ∧ decodeTableWord 16 2 = some .extract ∧
    decodeTableWord 16 3 = none := by decide
/-- R52: no other length. -/
theorem test_table_word_too_long : decodeTableWord 32 0x10001 = none := by decide

/-! ## The datapath (rules R61, R70, R74; S5 and the false variants of section 4) -/

theorem test_mask : mask? 2 = some 3 ∧ mask? 0 = none ∧ mask? 9 = none := by decide
theorem test_embed_low_bits : embedCh 200 10 3 = 202 ∧ embedCh 50 30 3 = 50 := by decide
theorem test_extract_no_shift : extractCh 202 3 = 2 := by decide
/-- R35, V-T: the largest address. -/
theorem test_largest_address : idx 65534 65534 2 65535 = 12884508674 := by decide
/-- P2: the order of a 3 x 2 grid. -/
theorem test_order_three_by_two : (List.range 18).map (addrAt 3 2) = [0, 1, 2, 9, 10, 11, 3, 4, 5, 12, 13, 14, 6, 7, 8, 15, 16, 17] := by
  decide

/-! ## One step -/

/-- P1, step 8. -/
theorem test_embed_accepted : step (onePixel.withFetchWord 16 1) = .next (running .embed) := rfl
/-- V-A: N and the dimensions both wrong. -/
theorem test_embed_priority :
    step ((small 9 1 1 2 1).withFetchWord 16 1) = .next rejected := rfl
/-- V-A: EXTRACT ignores the dimensions of B. -/
theorem test_extract_accepted :
    step ((small 2 1 1 0 0).withFetchWord 16 2) = .next { small 2 1 1 0 0 with state := .busy, opl := .extract } := rfl
/-- V-A: N = 257 is not truncated to 1. -/
theorem test_extract_no_truncation :
    step ((small 257 1 1 1 1).withFetchWord 16 2) =
      .next { small 257 1 1 1 1 with state := .error, err := .invalidConfiguration, errinfo := 0x0101 } := rfl
/-- V-A: IllegalCommand wins over everything. -/
theorem test_illegal_command :
    step ((small 0 1 1 2 2).withFetchWord 16 0xFFFF) =
      .next { small 0 1 1 2 2 with state := .error, err := .illegalCommand, errinfo := 0xFFFF } := rfl
/-- V-A: the reset state, an empty grid, DONE at once. -/
theorem test_embed_at_reset : step (State.reset.withFetchWord 16 1) = .next { State.reset with state := .done } := rfl
theorem test_extract_at_reset :
    step (State.reset.withFetchWord 16 2) = .next { State.reset with state := .done, opl := .extract } := rfl
/-- P1, controller step 0. -/
theorem test_controller_first_step : step (running .embed) = .next { running .embed with c := 1, memO := [(0, 202)] } := rfl
/-- P1, controller step 2. -/
theorem test_controller_last_step : step lastChannel = .next embedded := rfl
/-- P2: after channel 2 of (0, 0) comes (0, 1), after channel 2 of (0, 1) comes (1, 0). -/
theorem test_next_row_then_column :
    ({ small 4 3 2 3 2 with c := 2 } : State).nextPos = { small 4 3 2 3 2 with y := 1 } ∧
    ({ small 4 3 2 3 2 with y := 1, c := 2 } : State).nextPos = { small 4 3 2 3 2 with x := 1 } := ⟨rfl, rfl⟩
/-- V-R: WR NSIG while BUSY is ignored, a read of STATUS gives 0x0001. -/
theorem test_busy_register_port :
    hostStep (HostOp.wr .nsig 8) (running .embed) = .next (running .embed) ∧
    hostStep (HostOp.rd .status) (running .embed) = .next { running .embed with log := [.reg .status 0x0001] } := ⟨rfl, rfl⟩
/-- V-R: writes of STATUS and ERRINFO are ignored; STATUS still reads 0x0007. -/
theorem test_error_register_port :
    hostStep (HostOp.wr .status 0) rejected = .next rejected ∧ hostStep (HostOp.wr .errinfo 0) rejected = .next rejected ∧
    hostStep (HostOp.rd .status) rejected = .next { rejected with log := [.reg .status 0x0007] } := ⟨rfl, rfl, rfl⟩
/-- V-Z: reset of a block in ERROR. -/
theorem test_reset_in_error : hostStep HostOp.resetLine rejected =
    .next { State.reset with memA := rejected.memA, memB := rejected.memB } := rfl
/-- P1, steps 9 to 11: WAIT reads DONE, DUMP reads the result. -/
theorem test_wait_and_dump :
    step (before embedded 0 .wait) = .next { embedded with log := [.reg .status 0x0002] } ∧
    step (before embedded 0 (.dump .O 0 3)) = .next { embedded with log := [.bytes .O 0 [202, 100, 50]] } := ⟨rfl, rfl⟩
/-- P6: the write of NSIG is ignored or lands, as the host's delay has it. -/
theorem test_race_of_a_write :
    step (before lastChannel 0 (HostOp.wr .nsig 8)) = .next lastChannel ∧
    step (before lastChannel 1 (HostOp.wr .nsig 8)) = .next (before embedded 0 (HostOp.wr .nsig 8)) ∧
    step (before embedded 0 (HostOp.wr .nsig 8)) = .next { embedded with nsig := 8 } := ⟨rfl, rfl, rfl⟩

/-! ## Witnesses: the hypotheses of the statements can be met -/

theorem running_progress : (running .embed).Progress := fun _ =>
  ⟨0, by decide, by decide, by simp, fun _ _ => rfl⟩

theorem lastChannel_progress : lastChannel.Progress := fun _ => by
  refine ⟨2, by decide, by decide, by decide, fun a h => ?_⟩
  have h0 : 0 ≠ a := h 0 (by omega)
  have h1 : 1 ≠ a := h 1 (by omega)
  simp [lastChannel, running, onePixel, small, State.reset, Memory.peek?, h0, h1]

/-- A full block: the widest legal N and the largest grid. -/
def largest : State := small 8 65535 65535 65535 65535

/-! ### Encodings -/

theorem witness_DecodeReadsTheTwoCommandWords : (0x0000 : Word) ≠ 0b0000000000000001 ∧ (0x0000 : Word) ≠ 0b0000000000000010 ∧
    (0x0003 : Word) ≠ 0b0000000000000001 ∧ (0x0003 : Word) ≠ 0b0000000000000010 := by decide
theorem witness_DecodeEncodeAgree : Instr.embed.wellFormed = true ∧ Instr.extract.wellFormed = true ∧
    decode 0x0001 = .ok .embed ∧ decode 0x0002 = .ok .extract := ⟨rfl, rfl, rfl, rfl⟩
theorem witness_StatusWordValues : State.reset.RegisterInv ∧ (running .embed).RegisterInv ∧ embedded.RegisterInv ∧
    rejected.RegisterInv ∧ ({ small 2 1 1 2 1 with state := .error, err := .dimensionMismatch } : State).RegisterInv ∧
    ({ onePixel with state := .error, err := .illegalCommand, errinfo := 3 } : State).RegisterInv :=
  ⟨by decide, by decide, by decide, by decide, by decide, by decide⟩

/-! ### Steps -/

theorem witness_StepRunsTheDecodedCommand :
    ((before onePixel 5 (HostOp.wr .cmd 1)).script = [⟨5, HostOp.wr .cmd 1⟩] ∧
      (before onePixel 5 (HostOp.wr .cmd 1)).state ≠ .busy ∧ decode 1 = .ok .embed ∧ Instr.embed.wellFormed = true) ∧
    ((before (running .embed) 0 (HostOp.wr .cmd 2)).script = [⟨0, HostOp.wr .cmd 2⟩] ∧
      (before (running .embed) 0 (HostOp.wr .cmd 2)).state = .busy ∧ decode 2 = .ok .extract ∧
      Instr.extract.wellFormed = true) := ⟨⟨rfl, by decide, rfl, rfl⟩, ⟨rfl, rfl, rfl, rfl⟩⟩
theorem witness_EachStepIsOneAgentsStep :
    ((before onePixel 5 .wait).script = [⟨5, .wait⟩] ∧ (before onePixel 5 .wait).state ≠ .busy) ∧
    ((before (running .embed) 0 HostOp.resetLine).script = [⟨0, HostOp.resetLine⟩] ∧ HostOp.resetLine ≠ .wait) ∧
    ((before (running .embed) 0 .wait).state = .busy ∧
      ∀ l ∈ (before (running .embed) 0 .wait).script.head?, l.delay ≠ 0 ∨ l.op = .wait) ∧
    ((before (running .embed) 1 HostOp.resetLine).state = .busy ∧
      ∀ l ∈ (before (running .embed) 1 HostOp.resetLine).script.head?, l.delay ≠ 0 ∨ l.op = .wait) ∧
    (onePixel.state ≠ .busy ∧ onePixel.script = []) := by decide

/-! ### The register port -/

theorem witness_RegisterAccessRules : onePixel.state ≠ .busy ∧ embedded.state ≠ .busy ∧ rejected.state ≠ .busy ∧
    (running .embed).state = .busy ∧ step (running .embed) = .next { running .embed with c := 1, memO := [(0, 202)] } ∧
    ({ running .embed with c := 1, memO := [(0, 202)] } : State).state = .busy := by
  refine ⟨by decide, by decide, by decide, rfl, rfl, rfl⟩

/-! ### The datapath -/

/-- For MaskTable, MergeKeepsHighTakesLow, MergeIsAPerBitMux, SplitKeepsTheLowBitsInPlace and
SplitOfMergeIsThePayloadsLowBits: the smallest and the largest n. -/
theorem witness_masks : mask? 1 = some 1 ∧ nmask? 1 = some 254 ∧ mask? 8 = some 255 ∧ nmask? 8 = some 0 := by decide
theorem witness_MaskSelectsTheLowBits : (1 ≤ 1 ∧ 1 ≤ 8) ∧ (1 ≤ 8 ∧ 8 ≤ 8) ∧ (0 < 1 ∨ 8 < 0) ∧ (9 < 1 ∨ 8 < 9) := by decide
theorem witness_MergeCornerCases : mask? 1 = some 1 ∧ (∀ i, i < 1 → (0x03 : Byte).getLsbD i = (0x01 : Byte).getLsbD i) ∧
    mask? 8 = some 255 ∧ (∀ i, i < 8 → (0x80 : Byte).getLsbD i = (0x80 : Byte).getLsbD i) := by decide

/-! ### Addresses and memories -/

theorem witness_AddressesNeverWrap : (65535 ≤ 65535 ∧ 65534 < 65535 ∧ 2 ≤ 2) ∧ (1 ≤ 65535 ∧ 0 < 1 ∧ 0 ≤ 2) := by decide
theorem witness_MemoryReadsWhatWasWritten : 1 ≠ 0 ∧ Memory.peek? [(0, 7)] 1 = none := by decide
theorem witness_CanonicalMemoriesAreEqualData :
    (Memory.wf [(0, 7), (17179869183, 9)] = true ∧
      ∀ a, Memory.peek? [(0, 7), (17179869183, 9)] a = Memory.peek? [(0, 7), (17179869183, 9)] a) ∧
    (Memory.wf [(0, 7)] = true ∧ 17179869183 < 2 ^ 34) := ⟨⟨by decide, fun _ => rfl⟩, by decide⟩
theorem witness_FillStoresItsBytes : onePixel.state ≠ .busy ∧ 17179869182 + [(1 : Byte), 2].length ≤ 2 ^ 34 ∧
    1 < [(1 : Byte), 2].length ∧ (Space.B ≠ Space.A) ∧ 17179869181 < 17179869182 ∧
    17179869182 + [(1 : Byte), 2].length ≤ 17179869184 := by decide
theorem witness_DumpReturnsTheBytes : (onePixel.state ≠ .busy ∨ Space.O ≠ .O) ∧
    ((running .embed).state ≠ .busy ∨ Space.A ≠ .O) ∧ 17179869181 + 3 ≤ 2 ^ 34 ∧ 2 < 3 := by decide
theorem witness_HostMayNotTouchBusyMemories : (running .embed).state = .busy := rfl
theorem witness_WaitEndsWithStatus :
    ((before embedded 4 .wait).script = [⟨4, .wait⟩] ∧ (before embedded 4 .wait).state ≠ .busy) ∧
    ((before (running .embed) 0 .wait).script = [⟨0, .wait⟩] ∧ (before (running .embed) 0 .wait).state = .busy) := by decide

/-! ### Command acceptance and errors -/

theorem witness_EmbedStartsItsTraversal :
    ((small 1 1 1 1 1).state ≠ .busy ∧ 1 ≤ (small 1 1 1 1 1).nsig.toNat ∧ (small 1 1 1 1 1).nsig.toNat ≤ 8 ∧
      (small 1 1 1 1 1).aW = (small 1 1 1 1 1).bW ∧ (small 1 1 1 1 1).aH = (small 1 1 1 1 1).bH ∧
      (small 1 1 1 1 1).aW ≠ 0 ∧ (small 1 1 1 1 1).aH ≠ 0) ∧
    (largest.state ≠ .busy ∧ 1 ≤ largest.nsig.toNat ∧ largest.nsig.toNat ≤ 8 ∧ largest.aW = largest.bW ∧
      largest.aH = largest.bH ∧ largest.aW ≠ 0 ∧ largest.aH ≠ 0) := by decide
theorem witness_ExtractStartsItsTraversal :
    (small 8 65535 1 0 7).state ≠ .busy ∧ 1 ≤ (small 8 65535 1 0 7).nsig.toNat ∧ (small 8 65535 1 0 7).nsig.toNat ≤ 8 ∧
    (small 8 65535 1 0 7).aW ≠ 0 ∧ (small 8 65535 1 0 7).aH ≠ 0 := by decide
theorem witness_EmbedHidesThePayload :
    (largest.state ≠ .busy ∧ 1 ≤ largest.nsig.toNat ∧ largest.nsig.toNat ≤ 8 ∧ largest.aW = largest.bW ∧
      largest.aH = largest.bH ∧ 65534 < largest.aW.toNat ∧ 65534 < largest.aH.toNat ∧ 2 ≤ 2 ∧
      3 * largest.aW.toNat * largest.aH.toNat ≤ 12884508675) ∧
    ((small 1 0 3 0 3).state ≠ .busy ∧ 1 ≤ (small 1 0 3 0 3).nsig.toNat ∧ (small 1 0 3 0 3).aW = (small 1 0 3 0 3).bW) ∧
    ((small 0 1 1 1 1).state ≠ .busy ∧ (small 0 1 1 1 1).nsig.toNat < 1) ∧
    ((small 9 1 1 1 1).state ≠ .busy ∧ 8 < (small 9 1 1 1 1).nsig.toNat) ∧
    ((small 8 1 1 2 1).state ≠ .busy ∧ (small 8 1 1 2 1).aW ≠ (small 8 1 1 2 1).bW) ∧
    ((small 1 1 1 1 2).state ≠ .busy ∧ (small 1 1 1 1 2).aH ≠ (small 1 1 1 1 2).bH) := by decide
theorem witness_ExtractRecoversTheLowBits :
    ((small 8 65535 65535 0 0).state ≠ .busy ∧ 1 ≤ (small 8 65535 65535 0 0).nsig.toNat ∧
      (small 8 65535 65535 0 0).nsig.toNat ≤ 8 ∧ 65534 < (small 8 65535 65535 0 0).aW.toNat ∧
      65534 < (small 8 65535 65535 0 0).aH.toNat ∧ 2 ≤ 2) ∧
    ((small 0 1 1 0 0).state ≠ .busy ∧ (small 0 1 1 0 0).nsig.toNat < 1) ∧
    ((small 9 1 1 0 0).state ≠ .busy ∧ 8 < (small 9 1 1 0 0).nsig.toNat) := by decide
theorem witness_InvalidConfigurationIsRaised :
    ((small 0 1 1 1 1).state ≠ .busy ∧ (small 0 1 1 1 1).nsig.toNat = 0) ∧
    ((small 9 1 1 2 1).state ≠ .busy ∧ 9 ≤ (small 9 1 1 2 1).nsig.toNat) ∧
    ((small 65535 1 1 2 1).state ≠ .busy ∧ 9 ≤ (small 65535 1 1 2 1).nsig.toNat) := by decide
theorem witness_DimensionMismatchIsRaised :
    ((small 1 0 0 5 0).state ≠ .busy ∧ 1 ≤ (small 1 0 0 5 0).nsig.toNat ∧ (small 1 0 0 5 0).nsig.toNat ≤ 8 ∧
      (small 1 0 0 5 0).aW ≠ (small 1 0 0 5 0).bW) ∧
    ((small 8 1 1 1 2).state ≠ .busy ∧ (small 8 1 1 1 2).nsig.toNat ≤ 8 ∧ (small 8 1 1 1 2).aH ≠ (small 8 1 1 1 2).bH) ∧
    (exec .embed (small 8 1 1 1 2) = .next { small 8 1 1 1 2 with state := .error, err := .dimensionMismatch }) ∧
    (exec .extract onePixel = .next (running .extract)) := ⟨by decide, by decide, rfl, rfl⟩
theorem witness_IllegalCommandIsRaised : onePixel.state ≠ .busy ∧ (0x0000 : Word) ≠ 0x0001 ∧ (0x0000 : Word) ≠ 0x0002 ∧
    (0x0003 : Word) ≠ 0x0001 ∧ (0x0003 : Word) ≠ 0x0002 ∧ (0xFFFF : Word) ≠ 0x0001 ∧ (0xFFFF : Word) ≠ 0x0002 := by decide
theorem witness_ErrorPriority :
    ((small 0 1 1 2 2).state ≠ .busy ∧ issueCommand 3 (small 0 1 1 2 2) =
      .next { small 0 1 1 2 2 with state := .error, err := .illegalCommand, errinfo := 3 }) ∧
    ((small 9 1 1 2 1).state ≠ .busy ∧ issueCommand 1 (small 9 1 1 2 1) = .next rejected ∧
      8 < (small 9 1 1 2 1).nsig.toNat) ∧
    ((small 0 1 1 2 1).state ≠ .busy ∧ issueCommand 2 (small 0 1 1 2 1) =
      .next { small 0 1 1 2 1 with state := .error, err := .invalidConfiguration, errinfo := 0 } ∧
      (small 0 1 1 2 1).nsig.toNat < 1) ∧
    ((small 8 1 1 2 1).state ≠ .busy ∧ issueCommand 1 (small 8 1 1 2 1) =
      .next { small 8 1 1 2 1 with state := .error, err := .dimensionMismatch } ∧
      (small 8 1 1 2 1).nsig.toNat ≤ 8 ∧ (small 8 1 1 2 1).aW ≠ (small 8 1 1 2 1).bW) :=
  ⟨⟨by decide, rfl⟩, ⟨by decide, rfl, by decide⟩, ⟨by decide, rfl, by decide⟩, ⟨by decide, rfl, by decide⟩⟩
/-- For ErrorEntryWritesNothingElse, TheNextReadShowsTheError, ErrorsStayAndLeaveNoTrace and ErrinfoHoldsTheOffendingValue. -/
theorem witness_errors :
    (small 9 1 1 2 1).state ≠ .busy ∧ issueCommand 1 (small 9 1 1 2 1) = .next rejected ∧
    hostStep (HostOp.wr .cmd 1) (small 9 1 1 2 1) = .next rejected ∧ rejected.state = .error ∧
    Reg.nsig ≠ .status ∧ Reg.nsig ≠ .errinfo := ⟨by decide, rfl, rfl, rfl, by decide, by decide⟩
theorem witness_AcceptanceReadsNoMemory : issueCommand 1 onePixel = .next (running .embed) ∧
    issueCommand 1 (small 9 1 1 2 1) = .next rejected := ⟨rfl, rfl⟩
theorem witness_CmdIsATriggerIgnoredWhileBusy : onePixel.state ≠ .busy ∧ (running .embed).state = .busy := by decide
/-- ERRINFO changes by a command and by reset. -/
theorem witness_ErrinfoHoldsTheOffendingValue :
    (step (before (small 9 1 1 2 1) 0 (HostOp.wr .cmd 1)) = .next rejected ∧
      rejected.errinfo ≠ (before (small 9 1 1 2 1) 0 (HostOp.wr .cmd 1)).errinfo) ∧
    (step (before rejected 0 HostOp.resetLine) = .next { State.reset with memA := rejected.memA, memB := rejected.memB } ∧
      (0 : Word) ≠ (before rejected 0 HostOp.resetLine).errinfo) := ⟨⟨rfl, by decide⟩, rfl, by decide⟩
theorem witness_ErrorsAreRaisedOnlyAtAcceptance :
    ((running .embed).state = .busy ∧ step (running .embed) = .next { running .embed with c := 1, memO := [(0, 202)] }) ∧
    (step (before (small 9 1 1 2 1) 0 (HostOp.wr .cmd 1)) = .next rejected ∧ rejected.state = .error ∧
      (before (small 9 1 1 2 1) 0 (HostOp.wr .cmd 1)).state ≠ .error) ∧
    (step (before { rejected with nsig := 2 } 0 (HostOp.wr .cmd 1)) =
        .next { rejected with nsig := 2, err := .dimensionMismatch, errinfo := 0 } ∧
      ErrCode.dimensionMismatch ≠ rejected.err) := ⟨⟨rfl, rfl⟩, ⟨rfl, rfl, by decide⟩, rfl, by decide⟩
/-- STATUS changes by a command, by reset, and by the last step of a traversal. -/
theorem witness_StatusChangesOnlyByCommandResetOrController :
    (step (before (small 9 1 1 2 1) 0 (HostOp.wr .cmd 1)) = .next rejected ∧
      rejected.state ≠ (before (small 9 1 1 2 1) 0 (HostOp.wr .cmd 1)).state) ∧
    (step (before rejected 0 HostOp.resetLine) = .next { State.reset with memA := rejected.memA, memB := rejected.memB } ∧
      State.reset.state ≠ (before rejected 0 HostOp.resetLine).state) ∧
    (step lastChannel = .next embedded ∧ embedded.state ≠ lastChannel.state) :=
  ⟨⟨rfl, by decide⟩, ⟨rfl, by decide⟩, rfl, by decide⟩
theorem witness_ErrorsStayAndLeaveNoTrace : rejected.state = .error ∧ step rejected = .next rejected ∧
    step (before rejected 0 (HostOp.wr .nsig 2)) = .next { rejected with nsig := 2 } := ⟨rfl, rfl, rfl⟩
/-- Two blocks that differ in everything but the inputs: STATE, ERR, OPL and O. -/
theorem witness_OutcomeDependsOnlyOnInputs :
    onePixel.state ≠ .busy ∧
    ({ onePixel with state := .done, opl := .extract, memO := [(0, 1), (9, 9)] } : State).state ≠ .busy ∧
    (∀ a, a < onePixel.gridBytes →
      onePixel.read .A a = ({ onePixel with state := .done, opl := .extract, memO := [(0, 1), (9, 9)] } : State).read .A a ∧
      onePixel.read .B a = ({ onePixel with state := .done, opl := .extract, memO := [(0, 1), (9, 9)] } : State).read .B a) ∧
    exec .embed onePixel = .next (running .embed) ∧ (running .embed).state ≠ .error :=
  ⟨by decide, by decide, fun _ _ => ⟨rfl, rfl⟩, rfl, by decide⟩
theorem witness_EmptyGridIsDoneAtOnce :
    (State.reset.state ≠ .busy ∧ 1 ≤ State.reset.nsig.toNat ∧ State.reset.nsig.toNat ≤ 8 ∧
      State.reset.aW = 0 ∧ State.reset.aW = State.reset.bW ∧ State.reset.aH = State.reset.bH) ∧
    ((small 8 7 0 7 0).state ≠ .busy ∧ (small 8 7 0 7 0).nsig.toNat ≤ 8 ∧ (small 8 7 0 7 0).aH = 0 ∧
      (small 8 7 0 7 0).aW = (small 8 7 0 7 0).bW ∧ (small 8 7 0 7 0).aH = (small 8 7 0 7 0).bH) ∧
    ((small 1 0 0 5 0).state ≠ .busy ∧ (small 1 0 0 5 0).aW = 0 ∧ (small 1 0 0 5 0).aW ≠ (small 1 0 0 5 0).bW) ∧
    ((small 1 0 7 0 5).state ≠ .busy ∧ (small 1 0 7 0 5).aW = 0 ∧ (small 1 0 7 0 5).aH ≠ (small 1 0 7 0 5).bH) := by decide

/-! ### The controller -/

/-- A step in each clause: the next channel, the next row, the next column, the last channel. -/
theorem witness_ControllerStepEffect : onePixel.state ≠ .busy ∧
    ((running .embed).state = .busy ∧ (running .embed).script = [] ∧ mask? (running .embed).nsig.toNat = some 3) ∧
    (({ small 8 3 2 3 2 with state := .busy, c := 2 } : State).state = .busy ∧
      mask? ({ small 8 3 2 3 2 with state := .busy, c := 2 } : State).nsig.toNat = some 255) ∧
    (({ small 1 3 2 3 2 with state := .busy, y := 1, c := 2 } : State).state = .busy ∧
      mask? ({ small 1 3 2 3 2 with state := .busy, y := 1, c := 2 } : State).nsig.toNat = some 1) ∧
    (lastChannel.state = .busy ∧ mask? lastChannel.nsig.toNat = some 3) := by decide
theorem witness_CommandsChangeNothingElse :
    exec .embed onePixel = .next (running .embed) ∧ exec .embed (small 9 1 1 2 1) = .next rejected ∧
    (controllerStep lastChannel = .next embedded ∧ 0 ≠ lastChannel.addr ∧ 3 ≠ lastChannel.addr) ∧
    (lastChannel.RegisterInv ∧ lastChannel.state = .busy) := ⟨rfl, rfl, ⟨rfl, by decide, by decide⟩, by decide⟩
/-- For TraversalOrder and TraversalTakesItsSteps: the first and the last step of a traversal, both commands. -/
theorem witness_traversals : onePixel.state ≠ .busy ∧ exec .embed onePixel = .next (running .embed) ∧
    exec .extract onePixel = .next (running .extract) ∧ (running .embed).state = .busy ∧ (running .extract).state = .busy ∧
    0 < 3 * onePixel.aW.toNat * onePixel.aH.toNat ∧ 2 < 3 * onePixel.aW.toNat * onePixel.aH.toNat ∧
    11 < 3 * 2 * 2 := ⟨by decide, rfl, rfl, rfl, rfl, by decide, by decide, by decide⟩
/-- The traversal of P1 before its last channel, with its host's lines: a poll of STATUS, WAIT, DUMP O, and the next FILL. -/
def programTail : State :=
  { lastChannel with script := scriptOf [HostOp.rd .status, .wait, .dump .O 0 3, .fill .A 0 [1, 2, 3]] }

theorem programTail_keepsDuty : programTail.HostKeepsDuty := by
  intro k t hr hb op rest hm
  match k with
  | 0 =>
    injection hr with hr
    subst hr
    injection (show Move.host (HostOp.rd .status) (scriptOf [.wait, .dump .O 0 3, .fill .A 0 [1, 2, 3]]) = .host op rest from hm)
      with h
    subst h
    decide
  | 1 =>
    injection hr with hr
    subst hr
    exact absurd (show Move.controller = .host op rest from hm) (by simp)
  | k + 2 => exact absurd (hb 2 (by omega) _ rfl) (by decide)

/-- A FILL whose delay lets the traversal end first, as rule R42 allows. -/
theorem delayedFill_keepsDuty : (before lastChannel 1 (.fill .A 0 [1])).HostKeepsDuty := by
  intro k t hr hb op rest hm
  match k with
  | 0 =>
    injection hr with hr
    subst hr
    exact absurd (show Move.controller = .host op rest from hm) (by simp)
  | k + 1 => exact absurd (hb 1 (by omega) _ rfl) (by decide)

theorem witness_EveryTraversalEnds :
    (programTail.RegisterInv ∧ programTail.Progress ∧ programTail.state = .busy ∧ programTail.HostKeepsDuty ∧
      ∀ l ∈ programTail.openLines, l.op.wellFormed = true ∧ KeepsDuty programTail l.op = true) ∧
    ((before lastChannel 1 (.fill .A 0 [1])).RegisterInv ∧ (before lastChannel 1 (.fill .A 0 [1])).Progress ∧
      (before lastChannel 1 (.fill .A 0 [1])).state = .busy ∧ (before lastChannel 1 (.fill .A 0 [1])).HostKeepsDuty) :=
  ⟨⟨by decide, lastChannel_progress, rfl, programTail_keepsDuty, by decide⟩,
    ⟨by decide, lastChannel_progress, rfl, delayedFill_keepsDuty⟩⟩

/-- A grid of two pixels in a row: the first as in S5 but for the payload's blue channel, the second as in P4. -/
def twoPixels : State :=
  { small 2 2 1 2 1 with
    memA := [(0, 200), (1, 100), (2, 50), (3, 1), (4, 2), (5, 3)]
    memB := [(0, 10), (1, 20), (2, 31), (3, 4), (4, 5), (5, 6)] }

/-- EMBED on grids of different dimensions (the green channel of the first pixel is compared), and EXTRACT with another B (the
last channel is compared). -/
theorem witness_ChannelsAreIndependent :
    (onePixel.state ≠ .busy ∧ twoPixels.state ≠ .busy ∧ RunsTo .embed onePixel embedded ∧
      RunsTo .embed twoPixels { twoPixels with
        state := .done, memO := [(0, 202), (1, 100), (2, 51), (3, 0), (4, 1), (5, 2)] } ∧
      onePixel.nsig = twoPixels.nsig ∧ 1 < onePixel.gridBytes ∧ 1 < twoPixels.gridBytes ∧
      onePixel.read .A 1 = twoPixels.read .A 1 ∧ onePixel.read .B 1 = twoPixels.read .B 1) ∧
    (RunsTo .extract onePixel { onePixel with state := .done, opl := .extract, memO := [(0, 0), (1, 0), (2, 2)] } ∧
      RunsTo .extract { onePixel with memB := [] }
        { onePixel with memB := [], state := .done, opl := .extract, memO := [(0, 0), (1, 0), (2, 2)] } ∧
      2 < onePixel.gridBytes ∧ onePixel.read .A 2 = ({ onePixel with memB := [] } : State).read .A 2 ∧
      Instr.extract ≠ .embed) :=
  ⟨⟨by decide, by decide, ⟨_, rfl, by decide, rfl⟩, ⟨_, rfl, by decide, rfl⟩, rfl, by decide, by decide, rfl, rfl⟩,
    ⟨_, rfl, by decide, rfl⟩, ⟨_, rfl, by decide, rfl⟩, by decide, rfl, by decide⟩

theorem witness_OrderDoesNotMatter : onePixel.state ≠ .busy ∧ onePixel.MemoryInv ∧
    exec .embed onePixel = .next (running .embed) ∧ (running .embed).state = .busy ∧ mask? onePixel.nsig.toNat = some 3 ∧
    controllerSteps onePixel.gridBytes (running .embed) = .next embedded ∧
    [2, 0, 1].Perm (List.range onePixel.gridBytes) :=
  ⟨by decide, by decide, rfl, rfl, by decide, rfl, by decide⟩
theorem witness_ExtractIgnoresTheSecondInput : onePixel.state ≠ .busy ∧ exec .extract onePixel = .next (running .extract) ∧
    (running .extract).state = .busy ∧
    controllerSteps 1 (running .extract) = .next { running .extract with c := 1, memO := [(0, 0)] } :=
  ⟨by decide, rfl, rfl, rfl⟩
theorem witness_DoneMeansTheWholeResult : lastChannel.RegisterInv ∧ lastChannel.Progress ∧ lastChannel.state = .busy ∧
    step lastChannel = .next embedded ∧ embedded.state = .done ∧ 2 < lastChannel.gridBytes ∧ lastChannel.gridBytes ≤ 3 :=
  ⟨by decide, lastChannel_progress, rfl, rfl, rfl, by decide, by decide⟩

/-! ### Reset and invariants -/

theorem witness_ResetValues : (∃ s₀ : State, rejected.assertReset = s₀.assertReset) ∧ rejected.state ≠ .busy :=
  ⟨⟨rejected, rfl⟩, by decide⟩
theorem witness_ResetCutsATraversalShort : lastChannel.state = .busy ∧ lastChannel.RegisterInv ∧ lastChannel.MemoryInv ∧
    lastChannel.Progress ∧ mask? lastChannel.nsig.toNat = some 3 ∧ 2 < lastChannel.gridBytes ∧ lastChannel.gridBytes ≤ 3 :=
  ⟨rfl, by decide, by decide, lastChannel_progress, by decide, by decide, by decide⟩
/-- For the three invariants of every step. -/
theorem witness_invariants : lastChannel.RegisterInv ∧ lastChannel.MemoryInv ∧ lastChannel.Progress ∧
    step lastChannel = .next embedded ∧ (running .embed).RegisterInv ∧ (running .embed).MemoryInv ∧
    (running .embed).Progress ∧ step (running .embed) = .next { running .embed with c := 1, memO := [(0, 202)] } :=
  ⟨by decide, by decide, lastChannel_progress, rfl, by decide, by decide, running_progress, rfl⟩
theorem witness_NothingStopsAWellBehavedHost :
    ((HostOp.fill .A 17179869183 [1]).wellFormed = true ∧ KeepsDuty onePixel (.fill .A 17179869183 [1]) = true) ∧
    ((HostOp.dump .B 17179869183 1).wellFormed = true ∧ KeepsDuty (running .embed) (.dump .B 17179869183 1) = true) ∧
    (HostOp.resetLine.wellFormed = true ∧ KeepsDuty (running .embed) HostOp.resetLine = true) ∧
    ((running .embed).RegisterInv ∧ (running .embed).state = .busy) := by decide

end Sys2Proof.Tests
end

section
/-! PROOFS about 10_state.md, first part: what one step can do to the block's registers (rules R10, R15 to R18), said once. -/

namespace Sys2Proof.Machine

/-! ## States that agree on the registers -/

/-- `t` has the registers and the traversal position of `s`: all a step that only touches memories, the script or the log
leaves alone. -/
structure SameRegisters (s t : State) : Prop where
  nsig : t.nsig = s.nsig
  aW : t.aW = s.aW
  aH : t.aH = s.aH
  bW : t.bW = s.bW
  bH : t.bH = s.bH
  state : t.state = s.state
  err : t.err = s.err
  errinfo : t.errinfo = s.errinfo
  opl : t.opl = s.opl
  x : t.x = s.x
  y : t.y = s.y
  c : t.c = s.c

theorem SameRegisters.refl (s : State) : SameRegisters s s := by constructor <;> rfl

theorem SameRegisters.withScript (s : State) (rest : List ScriptLine) : SameRegisters s { s with script := rest } := by
  constructor <;> rfl

theorem SameRegisters.record (s : State) (r : HostRead) : SameRegisters s (s.record r) := by constructor <;> rfl

theorem SameRegisters.setMem (s : State) (m : Memory) (sp : Space) : SameRegisters s (s.setMem m sp) := by
  cases sp <;> constructor <;> rfl

theorem SameRegisters.trans {s t u : State} (h : SameRegisters s t) (h' : SameRegisters t u) : SameRegisters s u :=
  ⟨h'.nsig.trans h.nsig, h'.aW.trans h.aW, h'.aH.trans h.aH, h'.bW.trans h.bW, h'.bH.trans h.bH, h'.state.trans h.state,
    h'.err.trans h.err, h'.errinfo.trans h.errinfo, h'.opl.trans h.opl, h'.x.trans h.x, h'.y.trans h.y, h'.c.trans h.c⟩

theorem SameRegisters.waitStep (s : State) : SameRegisters s (waitStep s) := by
  unfold Machine.waitStep
  split_ifs
  · exact .withScript s _
  · exact .record s _

/-! ## The five effects of a step on the registers -/

/-- The host's next line is a CMD write, and the block will act on it. -/
abbrev State.TakesCommand (s : State) : Prop :=
  s.state ≠ .busy ∧ ∃ d i v rest, s.script = ⟨d, .port false true false i v⟩ :: rest ∧ Reg.ofIdx i = .cmd

/-- The host's next line asserts rst. -/
abbrev State.TakesReset (s : State) : Prop :=
  ∃ d we re i v rest, s.script = ⟨d, .port true we re i v⟩ :: rest

/-- What a step does to the registers: nothing, a configuration write, acceptance of a command word, reset, or one channel
of the controller. -/
inductive RegisterEffect (s : State) : State → Prop where
  | kept {t : State} (h : SameRegisters s t) : RegisterEffect s t
  | configured {t : State} (hb : s.state ≠ .busy) (r : Reg) (v : Word) (h : SameRegisters (s.writeConfig v r) t) :
      RegisterEffect s t
  | command {t : State} (hs : s.TakesCommand) (rest : List ScriptLine) (h : Accepted { s with script := rest } t) :
      RegisterEffect s t
  | reset (hs : s.TakesReset) (s₀ : State) : RegisterEffect s s₀.resetBlock
  | controller (hb : s.state = .busy) (m : Byte) (hm : s.mask? = some m) :
      RegisterEffect s (s.tick.writeChannel m).advance

/-- A reset answers the reset values over some memories; A and B are the ones it found. -/
theorem State.assertReset_eq_resetBlock (s : State) :
    ∃ s₀ : State, s.assertReset = s₀.resetBlock ∧ s₀.memA = s.memA ∧ s₀.memB = s.memB := by
  by_cases hb : s.state = .busy
  · refine ⟨s.abandon, State.assertReset_of_busy hb, ?_⟩
    unfold State.abandon
    split <;> exact ⟨rfl, rfl⟩
  · exact ⟨s, State.assertReset_of_not_busy hb, rfl, rfl⟩

theorem State.writeConfig_withScript (s : State) (rest : List ScriptLine) (v : Word) (r : Reg) :
    SameRegisters (s.writeConfig v r) ({ s with script := rest }.writeConfig v r) := by
  cases r <;> constructor <;> rfl

theorem HostDid.registerEffect {s t : State} {d : Nat} {op : HostOp} {rest : List ScriptLine}
    (hs : s.script = ⟨d, op⟩ :: rest) (h : HostDid { s with script := rest } op t) : RegisterEffect s t := by
  have hrest := SameRegisters.withScript s rest
  cases h with
  | reset we re i v =>
    obtain ⟨s₀, h₀, -, -⟩ := State.assertReset_eq_resetBlock { s with script := rest }
    exact h₀ ▸ .reset ⟨d, we, re, i, v, rest, hs⟩ s₀
  | command i v _ hi h =>
    rcases issueCommand_next h with ⟨-, rfl⟩ | ⟨hb, ha⟩
    · exact .kept hrest
    · exact .command ⟨hb, d, i, v, rest, hs, hi⟩ rest ha
  | wrote i v _ =>
    by_cases hb : s.state = .busy
    · rw [State.unlessBusy_of_busy (s := { s with script := rest }) _ hb]
      exact .kept hrest
    · rw [State.unlessBusy_of_not_busy (s := { s with script := rest }) _ hb]
      exact .configured hb (Reg.ofIdx i) v (s.writeConfig_withScript rest v _)
  | readReg i v => exact .kept (hrest.trans (.record _ _))
  | noAccess i v => exact .kept hrest
  | filled sp a bs _ _ => exact .kept (hrest.trans (.setMem _ _ _))
  | dumped sp a n _ _ => exact .kept (hrest.trans (.record _ _))
  | waited => exact .kept (hrest.trans (.waitStep _))

/-- Everything a step can do to the registers, if it answers a next state. -/
theorem step_registerEffect {s t : State} (h : step s = .next t) : RegisterEffect s t := by
  cases step_next h with
  | stayed _ _ => exact .kept (.refl s)
  | controller m hb hm => exact .controller hb m hm
  | host l rest _ hs _ h => exact h.registerEffect (d := l.delay) hs

/-! ## The register invariant of rule R25, effect by effect -/

theorem State.reset_registerInv : State.reset.RegisterInv := by decide

/-- Clause (c): what holds while BUSY. -/
theorem State.RegisterInv.of_busy {s : State} (hs : s.RegisterInv) (hb : s.state = .busy) :
    s.NLegal ∧ 1 ≤ s.aW.toNat ∧ 1 ≤ s.aH.toNat ∧ s.x.toNat < s.aW.toNat ∧ s.y.toNat < s.aH.toNat ∧ s.c.toNat ≤ 2 ∧
      (s.opl = .embed → s.bW = s.aW ∧ s.bH = s.aH) := hs.2.2.1 hb

theorem State.resetBlock_registerInv (s : State) : s.resetBlock.RegisterInv := by simp [State.RegisterInv]

theorem SameRegisters.registerInv {s t : State} (h : SameRegisters s t) (hs : s.RegisterInv) : t.RegisterInv := by
  simpa only [State.RegisterInv, State.NLegal, h.nsig, h.aW, h.aH, h.bW, h.bH, h.state, h.err, h.errinfo, h.opl, h.x, h.y,
    h.c] using hs

/-- While not BUSY the invariant does not speak of the configuration registers. -/
theorem State.RegisterInv.writeConfig {s : State} (hs : s.RegisterInv) (hb : s.state ≠ .busy) (v : Word) (r : Reg) :
    (s.writeConfig v r).RegisterInv := by
  obtain ⟨herr, hinfo, -, hpos⟩ := hs
  exact ⟨by simpa using herr, by simpa using hinfo, fun h => absurd (by simpa using h) hb, by simpa using hpos⟩

theorem State.not_emptyGrid_iff {s : State} : ¬s.EmptyGrid ↔ 1 ≤ s.aW.toNat ∧ 1 ≤ s.aH.toNat := by
  simp only [State.EmptyGrid, not_or, ← BitVec.toNat_inj, toNat_zero]
  omega

/-- Acceptance establishes the invariant, whatever held before. -/
theorem Accepted.registerInv {s t : State} (h : Accepted s t) : t.RegisterInv := by
  cases h with
  | raised e info he hi => exact ⟨by simp [he], fun h => ⟨rfl, hi h⟩, by simp, by simp⟩
  | started op hn hd =>
    by_cases hg : s.EmptyGrid
    · rw [State.startTraversal_empty op hg]
      exact ⟨by simp, by simp, by simp, by simp⟩
    · obtain ⟨hw, hh⟩ := State.not_emptyGrid_iff.1 hg
      rw [State.startTraversal_busy op hg]
      refine ⟨by simp, by simp, fun _ => ⟨hn, hw, hh, ?_, ?_, by simp, fun ho => ?_⟩, by simp⟩
      · exact hw
      · exact hh
      · obtain ⟨h₁, h₂⟩ := hd ho
        exact ⟨h₁.symm, h₂.symm⟩

/-- The end of a controller step keeps the invariant: the position moves inside the grid (rule R85), or the traversal ends
with no error. -/
theorem State.RegisterInv.advance {s : State} (hs : s.RegisterInv) (hb : s.state = .busy) : s.advance.RegisterInv := by
  obtain ⟨hn, hw, hh, hx, hy, hc, hd⟩ := hs.of_busy hb
  obtain ⟨herr, hinfo, -, -⟩ := hs
  have hno : s.err = .noError := by simpa [hb] using herr
  have hzero : s.errinfo = 0 := by simpa [hb] using hinfo
  by_cases hl : s.LastChannel
  · rw [State.advance_last hl]
    exact ⟨by simp [hno], by simp [hzero], by simp, by simp⟩
  · obtain ⟨-, hx', hy', hc'⟩ := State.nextPos_position hc hy hx (posAt_of_index hy (by omega)).symm hl
    rw [State.advance_not_last hl]
    refine ⟨by simp [hno, hb], by simp [hzero], fun _ => ?_, by simp [hb]⟩
    simpa [State.NLegal] using ⟨hn, hw, hh, hx', hy', hc', hd⟩

theorem RegisterEffect.registerInv {s t : State} (h : RegisterEffect s t) (hs : s.RegisterInv) : t.RegisterInv := by
  cases h with
  | kept h => exact h.registerInv hs
  | configured hb r v h => exact h.registerInv (hs.writeConfig hb v r)
  | command _ _ h => exact h.registerInv
  | reset _ s₀ => exact s₀.resetBlock_registerInv
  | controller hb m _ =>
    have hw : (s.tick.writeChannel m).RegisterInv := hs
    exact hw.advance hb

/-- Settles O56: each of the five effects a step can have on the registers keeps the invariant. -/
theorem everyStepKeepsTheRegisterInvariant : Obligations.EveryStepKeepsTheRegisterInvariant :=
  ⟨State.reset_registerInv, fun _ _ hs h => (step_registerEffect h).registerInv hs⟩

end Sys2Proof.Machine
end

section
/-! PROOFS about 10_state.md, second part: the register port line by line, whose step it is, and what a command word leaves
in ERR and ERRINFO (rules R10, R14 to R18, R23, R24). -/

namespace Sys2Proof.Machine

/-! ## The register port (rules R14, R17, R51) -/

@[simp] theorem Reg.ofIdx_idx (r : Reg) : Reg.ofIdx r.idx = r := by cases r <;> rfl

theorem hostStep_rd (r : Reg) (s : State) :
    hostStep (HostOp.rd r) s = .next (s.record (.reg r (s.readReg r))) := by
  simp [HostOp.rd, hostStep, portStep, readRegStep]

theorem hostStep_wr (r : Reg) (v : Word) (s : State) : hostStep (HostOp.wr r v) s = writeReg r v s := by
  simp [HostOp.wr, hostStep, portStep]

theorem writeReg_cmd (v : Word) (s : State) : writeReg .cmd v s = issueCommand v s := rfl

theorem writeReg_of_ne_cmd {r : Reg} (hr : r ≠ .cmd) (v : Word) (s : State) :
    writeReg r v s = .next (s.unlessBusy (s.writeConfig v r)) := by
  unfold writeReg
  split
  · exact absurd rfl hr
  · rfl

theorem writeReg_of_not_busy {s : State} (hb : s.state ≠ .busy) {r : Reg} (hr : r ≠ .cmd) (v : Word) :
    writeReg r v s = .next (s.writeConfig v r) := by
  rw [writeReg_of_ne_cmd hr, State.unlessBusy_of_not_busy _ hb]

theorem issueCommand_of_decode {v : Word} {i : Instr} (h : decode v = .ok i) (s : State) :
    issueCommand v s = exec i s := by
  simp [issueCommand, h]

theorem issueCommand_encode (i : Instr) (s : State) : issueCommand (encode i) s = exec i s := by
  cases i <;> rfl

theorem issueCommand_of_busy {s : State} (hb : s.state = .busy) (v : Word) : issueCommand v s = .next s := by
  obtain ⟨t, ht⟩ := issueCommand_total v s
  rcases issueCommand_next ht with ⟨-, rfl⟩ | ⟨hnb, -⟩
  · exact ht
  · exact absurd hb hnb

theorem writeReg_of_busy {s : State} (hb : s.state = .busy) (r : Reg) (v : Word) : writeReg r v s = .next s := by
  by_cases hr : r = .cmd
  · rw [hr, writeReg_cmd, issueCommand_of_busy hb]
  · rw [writeReg_of_ne_cmd hr, State.unlessBusy_of_busy _ hb]

/-! ## Whose step it is (rules R10, R88) -/

theorem ScriptLine.holdsBack_iff {l : ScriptLine} : l.holdsBack = true ↔ l.delay ≠ 0 ∨ l.op = .wait := by
  simp [ScriptLine.holdsBack]

theorem step_of_hostLine {s : State} {l : ScriptLine} {rest : List ScriptLine} (hs : s.script = l :: rest)
    (h : s.state ≠ .busy ∨ l.holdsBack = false) : step s = hostStep l.op { s with script := rest } := by
  have hm : s.nextMove = .host l.op rest := by
    simp only [State.nextMove, hs]
    rcases h with h | h <;> simp [h]
  simp [step, hm]

theorem step_of_controller {s : State} (hb : s.state = .busy) (h : ∀ l ∈ s.script.head?, l.holdsBack = true) :
    step s = controllerStep s.tick := by
  have hm : s.nextMove = .controller := by
    cases hs : s.script with
    | nil => simp [State.nextMove, hs, hb]
    | cons l rest => simp [State.nextMove, hs, hb, h l (by simp [hs])]
  simp [step, hm]

theorem step_of_nobody {s : State} (hb : s.state ≠ .busy) (hs : s.script = []) : step s = .next s := by
  have hm : s.nextMove = .idle := by simp [State.nextMove, hs, hb]
  simp [step, hm]

theorem State.withFetchWord_encode (i : Instr) (s : State) :
    s.withFetchWord 16 (encode i).toNat = s.pushCommand (encode i) := by
  cases i <;> rfl

/-! ## What a command word leaves in ERR and ERRINFO (rules R16, R81) -/

theorem decode_reserved {v w : Word} (h : decode v = .error (.reservedWord w)) : w = v := by
  unfold decode at h
  split_ifs at h
  cases h
  rfl

/-- The four answers to a command word while not BUSY, each error with its info. -/
theorem issueCommand_answers {s t : State} {v : Word} (hb : s.state ≠ .busy) (h : issueCommand v s = .next t) :
    t = s.raiseError .invalidConfiguration s.nsig ∨ t = s.raiseError .illegalCommand v ∨
    t = s.raiseError .dimensionMismatch 0 ∨ ∃ op, t = s.startTraversal op := by
  cases hd : decode v with
  | ok i =>
    rw [issueCommand_of_decode hd] at h
    cases i with
    | embed =>
      rw [exec_embed_eq hb] at h
      split_ifs at h <;> cases h <;> simp
    | extract =>
      rw [exec_extract_eq hb] at h
      split_ifs at h <;> cases h <;> simp
  | error e =>
    obtain ⟨w⟩ := e
    obtain rfl := decode_reserved hd
    obtain rfl : s.raiseError .illegalCommand w = t := by
      simpa [issueCommand, hd, State.rejectWord, State.unlessBusy_of_not_busy _ hb] using h
    exact .inr (.inl rfl)

/-! ## The two low bits of STATUS (rules R15, R23) -/

theorem State.statusWord_getLsbD (s : State) {i : Nat} (hi : i < 2) :
    s.statusWord.getLsbD i = s.state.code.getLsbD i := by
  simp only [State.statusWord, BitVec.getLsbD_append, if_pos hi]

/-! ## The obligations -/

/-- Settles O8: reads and writes by the rules of the port, and a step that stays BUSY by its effect on the registers. -/
theorem registerAccessRules : Obligations.RegisterAccessRules := by
  refine ⟨fun s r => hostStep_rd r s, fun _ => ⟨rfl, rfl, rfl, rfl, rfl, rfl, rfl, rfl⟩, fun s v => ?_, fun s v hb => ?_,
    fun s r v hb => by rw [hostStep_wr, writeReg_of_busy hb], fun s t hb h hbt => ?_⟩
  · simp [hostStep_wr, writeReg_of_ne_cmd, State.writeConfig, State.unlessBusy]
  · simp [hostStep_wr, writeReg_cmd, writeReg_of_not_busy hb, State.writeConfig]
  · cases step_registerEffect h with
    | kept h => exact ⟨h.nsig, h.aW, h.aH, h.bW, h.bH, h.opl⟩
    | configured hnb _ _ _ => exact absurd hb hnb
    | command hs _ _ => exact absurd hb hs.1
    | reset _ s₀ => simp at hbt
    | controller _ m _ => simp

/-- Settles O37: the answers of acceptance for the value, and the effects of a step on the registers for who writes it. -/
theorem errinfoHoldsTheOffendingValue : Obligations.ErrinfoHoldsTheOffendingValue := by
  refine ⟨fun s t v hb h => ?_, fun s t h hne => ?_⟩
  · rcases issueCommand_answers hb h with rfl | rfl | rfl | ⟨op, rfl⟩ <;> simp
  · cases step_registerEffect h with
    | kept h => exact absurd h.errinfo hne
    | configured _ r v h => exact absurd (h.errinfo.trans (by simp)) hne
    | command hs _ _ => exact .inl hs
    | reset hs s₀ => exact .inr ⟨by simp, hs⟩
    | controller _ m _ => simp at hne

/-- Settles O39: of the five effects of a step on the registers, three can change STATE, ERR or ERRINFO. -/
theorem statusChangesOnlyByCommandResetOrController : Obligations.StatusChangesOnlyByCommandResetOrController := by
  intro s t h hne
  cases step_registerEffect h with
  | kept h => simp [h.state, h.err, h.errinfo] at hne
  | configured _ r v h => simp [h.state, h.err, h.errinfo] at hne
  | command hs _ _ => exact .inl hs
  | reset hs s₀ => exact .inr (.inl hs)
  | controller hb m _ =>
    by_cases hl : (s.tick.writeChannel m).LastChannel
    · rw [State.advance_last hl]
      exact .inr (.inr ⟨hb, hl, by simp⟩)
    · simp [State.advance_not_last hl] at hne

/-- Settles O5, by the two low bits of STATUS in each of the four states. -/
theorem levelOutputsMirrorState : Obligations.LevelOutputsMirrorState := by
  intro s
  simp only [State.busyOut, State.doneOut, State.errorOut, decide_eq_true_iff, true_and,
    State.statusWord_getLsbD s (show 0 < 2 by decide), State.statusWord_getLsbD s (show 1 < 2 by decide)]
  cases s.state <;> decide

/-- Settles O6: the step takes the host's line, which writes CMD, which issues the command. -/
theorem stepRunsTheDecodedCommand : Obligations.StepRunsTheDecodedCommand := by
  have hline : ∀ (s : State) (d : Nat) (v : Word) (rest : List ScriptLine) (i : Instr),
      s.script = ⟨d, HostOp.wr .cmd v⟩ :: rest → (s.state ≠ .busy ∨ d = 0) → decode v = .ok i →
      step s = exec i { s with script := rest } := by
    intro s d v rest i hs hd hv
    have htake : s.state ≠ .busy ∨ (ScriptLine.mk d (HostOp.wr .cmd v)).holdsBack = false :=
      hd.imp_right fun h => by simp [ScriptLine.holdsBack, HostOp.wr, h]
    rw [step_of_hostLine hs htake, hostStep_wr, writeReg_cmd, issueCommand_of_decode hv]
  refine ⟨fun s d v rest i hs hd hv _ => hline s d v rest i hs hd hv, fun s i => ?_⟩
  rw [State.withFetchWord_encode]
  exact hline _ 0 _ s.script i rfl (.inr rfl) (by cases i <;> rfl)

/-- Settles O7, one clause for each agent and one for none. -/
theorem eachStepIsOneAgentsStep : Obligations.EachStepIsOneAgentsStep := by
  refine ⟨fun s l rest hs h => step_of_hostLine hs (h.imp_right fun ⟨hd, hw⟩ => ?_),
    fun s hb h => step_of_controller hb fun l hl => ScriptLine.holdsBack_iff.2 (h l hl), fun s => step_of_nobody⟩
  simp [ScriptLine.holdsBack, hd, hw]

/-- Settles O35, by the rules of the port and of a command word. -/
theorem cmdIsATriggerIgnoredWhileBusy : Obligations.CmdIsATriggerIgnoredWhileBusy :=
  ⟨fun s v _ => hostStep_wr .cmd v s, fun s i => issueCommand_encode i s, fun s => hostStep_rd .cmd s,
    fun v s hb => by rw [hostStep_wr, writeReg_of_busy hb], fun i _ hb => exec_of_busy i hb⟩

/-- Settles O52: a reset leaves the reset values over the memories it found. -/
theorem resetValues : Obligations.ResetValues := by
  refine ⟨fun s hs => ?_, fun s a => ?_, fun sp a => by cases sp <;> rfl⟩
  · rcases hs with rfl | ⟨s, rfl⟩
    · decide
    · obtain ⟨s₀, h, -, -⟩ := s.assertReset_eq_resetBlock
      rw [h]
      simp [State.statusWord, State.busyOut, State.doneOut, State.errorOut, RunState.code, ErrCode.code]
  · obtain ⟨s₀, h, hA, hB⟩ := s.assertReset_eq_resetBlock
    exact ⟨by simp [State.read, h, hA], by simp [State.read, h, hB],
      fun hb => by simp [State.read, State.assertReset_of_not_busy hb]⟩

/-- Settles O55: every memory is empty at reset, and no traversal runs. -/
theorem resetMeetsTheInvariants : Obligations.ResetMeetsTheInvariants :=
  ⟨State.reset_registerInv, by decide, fun hb => absurd hb (by decide)⟩

end Sys2Proof.Machine
end

section
/-! PROOFS about 10_state.md, third part: a traversal from acceptance to DONE (rules R84 to R88), and that its outcome depends
on nothing but its inputs (rule R22). -/

namespace Sys2Proof.Machine

/-! ## One controller step of a running traversal -/

theorem State.TraversedTo.position {s : State} {k : Nat} (h : s.TraversedTo k) :
    (s.x.toNat, s.y.toNat, s.c.toNat) = posAt s.aH.toNat k := h.1

/-- The step of channel `k`, not the last, leaves the traversal running at channel `k + 1`. -/
theorem State.TraversedTo.controllerStep_running {s : State} {k : Nat} (h : s.TraversedTo k) (hs : s.RegisterInv)
    (hb : s.state = .busy) (hk : k + 1 < s.gridBytes) :
    ∃ t, controllerStep s = .next t ∧ t.state = .busy ∧ t.RegisterInv ∧ t.TraversedTo (k + 1) := by
  obtain ⟨hn, -, -, hx, hy, hc, -⟩ := hs.of_busy hb
  obtain ⟨m, hm⟩ := State.exists_mask hn
  have hl : ¬(s.writeChannel m).LastChannel := fun hl => by
    have := (State.lastChannel_iff hc hy hx h.position).1 hl
    omega
  have hstep := controllerStep_of_mask hm
  rw [State.advance_not_last hl] at hstep
  have hw : (s.writeChannel m).RegisterInv := hs
  obtain ⟨hdone, hrest⟩ := h.write (by omega) hm
  refine ⟨_, hstep, by simpa using hb, State.advance_not_last hl ▸ hw.advance hb, ?_, fun j hj => ?_, fun a ha => ?_⟩
  · rw [State.nextPos_aH]
    exact (State.nextPos_position (s := s.writeChannel m) hc hy hx h.position hl).1
  · have hfinal : ∀ a, (s.writeChannel m).nextPos.finalByte? a = s.finalByte? a := fun a =>
      State.finalByte?_congr a (by simp) (by simp) (by simp) (by simp)
    simpa [hfinal] using hdone j hj
  · simpa using hrest a (by simpa using ha)

/-- The step of the last channel sets DONE with the whole result in O. -/
theorem State.TraversedTo.controllerStep_last {s : State} {k : Nat} (h : s.TraversedTo k) (hs : s.RegisterInv)
    (hb : s.state = .busy) (hk : k + 1 = s.gridBytes) :
    ∃ t, controllerStep s = .next t ∧ t.state = .done ∧ t.RegisterInv ∧
      (∀ a, a < s.gridBytes → Memory.peek? t.memO a = s.finalByte? a) ∧
      (∀ a, s.gridBytes ≤ a → Memory.peek? t.memO a = Memory.peek? s.oldO a) := by
  obtain ⟨hn, -, -, hx, hy, hc, -⟩ := hs.of_busy hb
  obtain ⟨m, hm⟩ := State.exists_mask hn
  have hl : (s.writeChannel m).LastChannel := (State.lastChannel_iff hc hy hx h.position).2 hk
  have hstep := controllerStep_of_mask hm
  rw [State.advance_last hl] at hstep
  have hw : (s.writeChannel m).RegisterInv := hs
  obtain ⟨hdone, hrest⟩ := h.write (by omega) hm
  rw [hk] at hdone hrest
  refine ⟨_, hstep, rfl, State.advance_last hl ▸ hw.advance hb, fun a ha => ?_, fun a ha => hrest a fun j hj he => ?_⟩
  · obtain ⟨j, hj, rfl⟩ := addrAt_surj ha
    exact hdone j hj
  · have : addrAt s.aW.toNat s.aH.toNat j < s.gridBytes := addrAt_lt hj
    omega

/-! ## A whole traversal -/

theorem controllerSteps_one (s : State) : controllerSteps 1 s = controllerStep s := by
  simp only [controllerSteps]
  cases controllerStep s <;> rfl

theorem controllerSteps_succ_last {s t : State} {k : Nat} (h : controllerSteps k s = .next t) :
    controllerSteps (k + 1) s = controllerStep t := by
  rw [controllerSteps_add k 1 h, controllerSteps_one]

/-- What `k` controller steps keep (rules R84, R92), as `controllerStep_keeps` says it of one. -/
theorem controllerSteps_keeps {s t : State} {k : Nat} (h : controllerSteps k s = .next t) :
    t.nsig = s.nsig ∧ t.aW = s.aW ∧ t.aH = s.aH ∧ t.bW = s.bW ∧ t.bH = s.bH ∧ t.err = s.err ∧ t.errinfo = s.errinfo ∧
    t.opl = s.opl ∧ t.memA = s.memA ∧ t.memB = s.memB ∧ t.abandons = s.abandons ∧ t.script = s.script ∧ t.log = s.log := by
  induction k generalizing s with
  | zero => cases h; simp
  | succ k ih =>
    simp only [controllerSteps] at h
    split at h
    · next u hu => simpa only [controllerStep_keeps hu] using ih h
    · cases h
    · cases h

/-- No controller step that is not the last touches the saved O. -/
theorem controllerStep_oldO {s t : State} (h : controllerStep s = .next t) (hb : t.state = .busy) : t.oldO = s.oldO := by
  obtain ⟨m, -, rfl⟩ := controllerStep_next h
  by_cases hl : (s.writeChannel m).LastChannel
  · simp [State.advance_last hl] at hb
  · simp [State.advance_not_last hl]

/-- A traversal that has just started is, `k` steps on, running at channel `k`, as long as its grid has that channel. -/
theorem controllerSteps_running {s : State} (hs : s.RegisterInv) (hb : s.state = .busy) (h : s.TraversedTo 0) {k : Nat}
    (hk : k < s.gridBytes) :
    ∃ t, controllerSteps k s = .next t ∧ t.state = .busy ∧ t.RegisterInv ∧ t.TraversedTo k ∧ t.oldO = s.oldO := by
  induction k with
  | zero => exact ⟨s, rfl, hb, hs, h, rfl⟩
  | succ k ih =>
    obtain ⟨t, ht, htb, hti, htk, hto⟩ := ih (by omega)
    obtain ⟨-, hw, hh, -⟩ := controllerSteps_keeps ht
    obtain ⟨u, hu, hub, hui, huk⟩ := htk.controllerStep_running hti htb (by rwa [State.gridBytes_congr hw hh])
    exact ⟨u, by rw [controllerSteps_succ_last ht, hu], hub, hui, huk, (controllerStep_oldO hu hub).trans hto⟩

/-- A traversal that has just started is DONE after as many steps as its grid has channels, with every byte of the grid at its
final value and every other as the command found it (rules R82, R83, R88). -/
theorem controllerSteps_done {s : State} (hs : s.RegisterInv) (hb : s.state = .busy) (h : s.TraversedTo 0) :
    ∃ u, controllerSteps s.gridBytes s = .next u ∧ u.state = .done ∧ u.RegisterInv ∧
      (∀ a, a < s.gridBytes → Memory.peek? u.memO a = s.finalByte? a) ∧
      (∀ a, s.gridBytes ≤ a → Memory.peek? u.memO a = Memory.peek? s.oldO a) := by
  obtain ⟨-, hw, hh, -⟩ := hs.of_busy hb
  have hpos : 0 < s.gridBytes := Nat.mul_pos (by omega) hh
  obtain ⟨k, hk⟩ : ∃ k, s.gridBytes = k + 1 := ⟨s.gridBytes - 1, by omega⟩
  obtain ⟨t, ht, htb, hti, htk, hto⟩ := controllerSteps_running hs hb h (k := k) (by omega)
  obtain ⟨hn, hw, hh, -, -, -, -, hl, hA, hB, -⟩ := controllerSteps_keeps ht
  have hg := State.gridBytes_congr hw hh
  obtain ⟨u, hu, hud, hui, hin, hout⟩ := htk.controllerStep_last hti htb (by omega)
  refine ⟨u, by rw [hk, controllerSteps_succ_last ht, hu], hud, hui, fun a ha => ?_, fun a ha => ?_⟩
  · rw [hin a (by omega), State.finalByte?_congr a hn hl hA hB]
  · rw [hout a (by omega), hto]

@[simp] theorem State.startTraversal_x (s : State) (op : Operation) : (s.startTraversal op).x = 0 := by
  unfold State.startTraversal
  split_ifs <;> rfl
@[simp] theorem State.startTraversal_y (s : State) (op : Operation) : (s.startTraversal op).y = 0 := by
  unfold State.startTraversal
  split_ifs <;> rfl
@[simp] theorem State.startTraversal_c (s : State) (op : Operation) : (s.startTraversal op).c = 0 := by
  unfold State.startTraversal
  split_ifs <;> rfl

theorem State.gridBytes_of_emptyGrid {s : State} (h : s.EmptyGrid) : s.gridBytes = 0 := by
  rcases h with h | h <;> simp [State.gridBytes, h]

theorem State.startTraversal_gridBytes (s : State) (op : Operation) : (s.startTraversal op).gridBytes = s.gridBytes :=
  State.gridBytes_congr (by simp) (by simp)

/-- An accepted command is DONE after `3*W*H` controller steps, none on an empty grid; the grid's bytes of O are final and the
others as the command found them. -/
theorem State.startTraversal_done {s : State} {op : Operation} (hn : s.NLegal) (hd : op = .embed → s.DimsMatch) :
    ∃ u, controllerSteps s.gridBytes (s.startTraversal op) = .next u ∧ u.state = .done ∧ u.RegisterInv ∧
      (∀ a, a < s.gridBytes → Memory.peek? u.memO a = (s.startTraversal op).finalByte? a) ∧
      (∀ a, s.gridBytes ≤ a → Memory.peek? u.memO a = Memory.peek? s.memO a) := by
  have hinv := (Accepted.started op hn hd).registerInv
  by_cases he : s.EmptyGrid
  · have hg := State.gridBytes_of_emptyGrid he
    exact ⟨s.startTraversal op, by rw [hg]; rfl, by rw [State.startTraversal_state, if_pos he], hinv,
      fun a ha => by omega, fun a _ => by rw [State.startTraversal_memO]⟩
  · have hb : (s.startTraversal op).state = .busy := by rw [State.startTraversal_state, if_neg he]
    have hold : (s.startTraversal op).oldO = s.memO := by rw [State.startTraversal_busy op he]
    simpa only [State.startTraversal_gridBytes, hold] using
      controllerSteps_done hinv hb (State.startTraversal_traversedTo op he)

/-! ## Two runs with the same inputs (rule R22) -/

/-- The byte a channel gets depends on N, on the command and on the bytes of A and B at its address. -/
theorem State.finalByte?_startTraversal_congr {s s' : State} (op : Operation) {a : Nat} (hn : s.nsig = s'.nsig)
    (hA : s.read .A a = s'.read .A a) (hB : s.read .B a = s'.read .B a) :
    (s.startTraversal op).finalByte? a = (s'.startTraversal op).finalByte? a := by
  simp only [State.read, State.mem_A, State.mem_B] at hA hB
  simp [State.finalByte?, State.mask?, State.channelOut, State.read, hn, hA, hB]

/-- Two answers to a command that show the same outcome: at once the same STATE, ERR, ERRINFO and position, and, where that is
no error, after `n` controller steps both DONE with the same first `n` bytes of O. -/
def SameOutcome (n : Nat) (t t' : State) : Prop :=
  t.state = t'.state ∧ t.err = t'.err ∧ t.errinfo = t'.errinfo ∧ t.x = t'.x ∧ t.y = t'.y ∧ t.c = t'.c ∧
  (t.state ≠ .error → ∃ u u', controllerSteps n t = .next u ∧ controllerSteps n t' = .next u' ∧
    u.state = .done ∧ u'.state = .done ∧ ∀ a, a < n → u.read .O a = u'.read .O a)

theorem sameOutcome_raiseError (n : Nat) (s s' : State) (e : ErrCode) (info : Word) :
    SameOutcome n (s.raiseError e info) (s'.raiseError e info) := by simp [SameOutcome]

/-- Two states the block cannot tell apart when a command is issued: N, the dimensions, and the grid's bytes of A and B. -/
structure SameInputs (s s' : State) : Prop where
  nsig : s.nsig = s'.nsig
  aW : s.aW = s'.aW
  aH : s.aH = s'.aH
  bW : s.bW = s'.bW
  bH : s.bH = s'.bH
  bytes : ∀ a, a < s.gridBytes → s.read .A a = s'.read .A a ∧ s.read .B a = s'.read .B a

theorem SameInputs.sameOutcome_startTraversal {s s' : State} (h : SameInputs s s') {op : Operation} (hn : s.NLegal)
    (hd : op = .embed → s.DimsMatch) : SameOutcome s.gridBytes (s.startTraversal op) (s'.startTraversal op) := by
  have hn' : s'.NLegal := by simpa only [State.NLegal, h.nsig] using hn
  have hd' : op = .embed → s'.DimsMatch := by simpa only [State.DimsMatch, h.aW, h.aH, h.bW, h.bH] using hd
  obtain ⟨u, hu, hud, -, hin, -⟩ := State.startTraversal_done hn hd
  obtain ⟨u', hu', hud', -, hin', -⟩ := State.startTraversal_done hn' hd'
  rw [State.gridBytes_congr h.aW.symm h.aH.symm] at hu' hin'
  refine ⟨by simp only [State.startTraversal_state, State.EmptyGrid, h.aW, h.aH], by simp, by simp, by simp, by simp, by simp,
    fun _ => ⟨u, u', hu, hu', hud, hud', fun a ha => Memory.readByte_congr ?_⟩⟩
  obtain ⟨hA, hB⟩ := h.bytes a ha
  calc Memory.peek? u.memO a = (s.startTraversal op).finalByte? a := hin a ha
    _ = (s'.startTraversal op).finalByte? a := State.finalByte?_startTraversal_congr op h.nsig hA hB
    _ = Memory.peek? u'.memO a := (hin' a ha).symm

/-- Both runs take the same branch of acceptance, and each branch shows the same outcome. -/
theorem SameInputs.exec_sameOutcome {s s' : State} (h : SameInputs s s') (hb : s.state ≠ .busy) (hb' : s'.state ≠ .busy)
    (i : Instr) : ∃ t t', exec i s = .next t ∧ exec i s' = .next t' ∧ SameOutcome s.gridBytes t t' := by
  have hN : s'.NLegal ↔ s.NLegal := by simp only [State.NLegal, h.nsig]
  have hD : s'.DimsMatch ↔ s.DimsMatch := by simp only [State.DimsMatch, h.aW, h.aH, h.bW, h.bH]
  cases i with
  | embed =>
    refine ⟨_, _, exec_embed_eq hb, exec_embed_eq hb', ?_⟩
    simp only [hN, hD, ← h.nsig]
    split_ifs with hn hd
    · exact h.sameOutcome_startTraversal hn fun _ => hd
    · exact sameOutcome_raiseError _ _ _ _ _
    · exact sameOutcome_raiseError _ _ _ _ _
  | extract =>
    refine ⟨_, _, exec_extract_eq hb, exec_extract_eq hb', ?_⟩
    simp only [hN, ← h.nsig]
    split_ifs with hn
    · exact h.sameOutcome_startTraversal hn (by simp)
    · exact sameOutcome_raiseError _ _ _ _ _

/-- Settles O41: what its hypotheses say is that the block cannot tell the two states apart. -/
theorem outcomeDependsOnlyOnInputs : Obligations.OutcomeDependsOnlyOnInputs :=
  fun i _ _ hb hb' hn haw hah hbw hbh hbytes => SameInputs.exec_sameOutcome ⟨hn, haw, hah, hbw, hbh, hbytes⟩ hb hb' i

end Sys2Proof.Machine
end

section
/-! PROOFS about 20_memory.md, first part: addresses, one pixel memory and its canonical form, and which steps of the host and
of the controller answer a next state (rules R30, R31, R35, R38, R42, R46, R50). -/

namespace Sys2Proof.Machine

/-! ## Reads (rules R38, R46) -/

/-- Settles O18, by what is listed at an address after a write. -/
theorem memoryReadsWhatWasWritten : Obligations.MemoryReadsWhatWasWritten := fun _ m a _ v =>
  ⟨Memory.readByte_of_peek? (Memory.peek?_poke_same m a v),
    fun hb => Memory.readByte_congr (Memory.peek?_poke_other m v hb.symm),
    fun hn => by rw [Memory.readByte, hn, Option.getD_none]⟩

/-! ## The canonical form -/

theorem Memory.peek?_cons_same (k : Nat) (b : Byte) (rest : Memory) : Memory.peek? ((k, b) :: rest) k = some b :=
  if_pos rfl

theorem Memory.peek?_cons_other {k a : Nat} (b : Byte) (rest : Memory) (h : k ≠ a) :
    Memory.peek? ((k, b) :: rest) a = Memory.peek? rest a := if_neg h

theorem Memory.eq_nil_of_peek?_none {m : Memory} (h : ∀ a, Memory.peek? m a = none) : m = [] := by
  cases m with
  | nil => rfl
  | cons e rest =>
    have hk := h e.1
    rw [Memory.peek?_cons_same] at hk
    cases hk

/-- The first address listed is the lowest: a memory that lists the same bytes cannot begin below it. -/
theorem Memory.head_le_of_peek?_eq {k k' : Nat} {b b' : Byte} {rest rest' : Memory}
    (hm : Memory.wf ((k, b) :: rest) = true)
    (h : ∀ a, Memory.peek? ((k, b) :: rest) a = Memory.peek? ((k', b') :: rest') a) : k ≤ k' := by
  by_contra hlt
  obtain ⟨-, hlow, -⟩ := (Memory.wf_cons k b rest).1 hm
  have hnone : Memory.peek? ((k, b) :: rest) k' = none := by
    rw [Memory.peek?_cons_other b rest (by omega)]
    exact Memory.peek?_none_of_lt fun e he => (Nat.lt_of_not_le hlt).trans (hlow e he)
  rw [h k', Memory.peek?_cons_same] at hnone
  cases hnone

/-- Canonical memories that list the same bytes have the same first cell, and so the same rest. -/
theorem Memory.ext_of_wf {m m' : Memory} (hm : Memory.wf m = true) (hm' : Memory.wf m' = true)
    (h : ∀ a, Memory.peek? m a = Memory.peek? m' a) : m = m' := by
  induction m generalizing m' with
  | nil => exact (Memory.eq_nil_of_peek?_none fun a => (h a).symm).symm
  | cons e rest ih =>
    obtain ⟨k, b⟩ := e
    cases m' with
    | nil => exact Memory.eq_nil_of_peek?_none h
    | cons e' rest' =>
      obtain ⟨k', b'⟩ := e'
      obtain rfl : k = k' := Nat.le_antisymm (Memory.head_le_of_peek?_eq hm h)
        (Memory.head_le_of_peek?_eq hm' fun a => (h a).symm)
      obtain rfl : b = b' := by
        have hk := h k
        rwa [Memory.peek?_cons_same, Memory.peek?_cons_same, Option.some_inj] at hk
      obtain ⟨-, hlow, hrest⟩ := (Memory.wf_cons k b rest).1 hm
      obtain ⟨-, hlow', hrest'⟩ := (Memory.wf_cons k b rest').1 hm'
      rw [ih hrest hrest' fun a => ?_]
      by_cases ha : k = a
      · subst ha
        rw [Memory.peek?_none_of_lt hlow, Memory.peek?_none_of_lt hlow']
      · rw [← Memory.peek?_cons_other b rest ha, h a, Memory.peek?_cons_other b rest' ha]

/-- Settles O19: the two properties the canonical form is chosen for. -/
theorem canonicalMemoriesAreEqualData : Obligations.CanonicalMemoriesAreEqualData :=
  ⟨fun _ _ hm hm' h => Memory.ext_of_wf hm hm' h, fun _ _ v hm ha => Memory.wf_poke v hm ha⟩

/-! ## Addresses (rule R35) -/

theorem channelCount_le_of_dims {w h : Nat} (hw : w ≤ 65535) (hh : h ≤ 65535) : 3 * w * h ≤ 3 * 65535 * 65535 :=
  Nat.mul_le_mul (Nat.mul_le_mul_left 3 hw) hh

/-- Settles O17: an address lies below the number of channels of its grid. -/
theorem addressesNeverWrap : Obligations.AddressesNeverWrap := by
  refine ⟨fun x y c w h hw hh hx hy hc => ?_, by decide, by decide, State.addr_lt⟩
  have hidx := idx_lt hx hy (show c < 3 by omega)
  have hgrid := channelCount_le_of_dims hw hh
  constructor <;> omega

/-! ## Which steps answer a next state (rules R42, R50, R62) -/

/-- Settles O22: the duty of rule R42 is the first thing a FILL and a DUMP check. -/
theorem hostMayNotTouchBusyMemories : Obligations.HostMayNotTouchBusyMemories :=
  ⟨fun _ _ _ _ hb => if_pos hb, fun _ _ _ hb => if_pos ⟨hb, rfl⟩⟩

theorem writeReg_total (r : Reg) (v : Word) (s : State) : ∃ t, writeReg r v s = .next t := by
  by_cases hr : r = .cmd
  · rw [hr, writeReg_cmd]
    exact issueCommand_total v s
  · exact ⟨_, writeReg_of_ne_cmd hr v s⟩

/-- The register port stops at nothing but both strobes without rst (U9). -/
theorem portStep_total {rst we re : Bool} (h : (rst || !(we && re)) = true) (i : RegIdx) (v : Word) (s : State) :
    ∃ t, portStep rst we re i v s = .next t := by
  unfold portStep
  split_ifs with hrst hboth hwe hre
  · exact ⟨_, rfl⟩
  · simp [hrst, hboth] at h
  · exact writeReg_total _ v s
  · exact ⟨_, rfl⟩
  · exact ⟨_, rfl⟩

theorem hostStep_total {s : State} {op : HostOp} (hw : op.wellFormed = true) (hd : KeepsDuty s op = true) :
    ∃ t, hostStep op s = .next t := by
  cases op with
  | port rst we re i v => exact portStep_total hw i v s
  | fill sp a bs => exact ⟨_, (if_neg (of_decide_eq_true hd)).trans (if_pos (of_decide_eq_true hw))⟩
  | dump sp a n => exact ⟨_, (if_neg (of_decide_eq_true hd)).trans (if_pos (of_decide_eq_true hw))⟩
  | wait => exact ⟨_, rfl⟩

/-- Settles O59: the host's steps one by one, and the mask of a legal N for the controller's. -/
theorem nothingStopsAWellBehavedHost : Obligations.NothingStopsAWellBehavedHost := by
  refine ⟨fun s op => hostStep_total, fun s hs hb => ?_⟩
  obtain ⟨hn, -⟩ := hs.of_busy hb
  obtain ⟨m, hm⟩ := State.exists_mask hn
  exact ⟨_, controllerStep_of_mask hm⟩

end Sys2Proof.Machine
end

section
/-! PROOFS about 20_memory.md, second part: what a step does to the memories. Every operation keeps their canonical form (rules
R30, R31, R38), and the step that sets DONE leaves the whole result in O (rule R41). -/

namespace Sys2Proof.Machine

/-! ## The memory invariant, operation by operation -/

theorem State.MemoryInv.wf_mem {s : State} (hs : s.MemoryInv) (sp : Space) : Memory.wf (s.mem sp) = true := by
  obtain ⟨hA, hB, hO, -, -⟩ := hs
  cases sp
  · exact hA
  · exact hB
  · exact hO

theorem State.MemoryInv.setMem {s : State} (hs : s.MemoryInv) {m : Memory} (hm : Memory.wf m = true) (sp : Space) :
    (s.setMem m sp).MemoryInv := by
  obtain ⟨hA, hB, hO, hold, hnone⟩ := hs
  cases sp
  · exact ⟨hm, hB, hO, hold, hnone⟩
  · exact ⟨hA, hm, hO, hold, hnone⟩
  · exact ⟨hA, hB, hm, hold, hnone⟩

/-- The invariant speaks of the memories and of STATE alone. -/
theorem State.MemoryInv.congr {s t : State} (hs : s.MemoryInv) (hA : t.memA = s.memA) (hB : t.memB = s.memB)
    (hO : t.memO = s.memO) (hold : t.oldO = s.oldO) (hst : t.state = s.state) : t.MemoryInv := by
  simpa only [State.MemoryInv, hA, hB, hO, hold, hst] using hs

/-- The address a controller step writes is inside the 34-bit space (rule R35). -/
theorem State.MemoryInv.writeChannel {s : State} (hs : s.MemoryInv) (m : Byte) : (s.writeChannel m).MemoryInv :=
  hs.setMem (Memory.wf_poke _ (hs.wf_mem .O) s.addr_lt) .O

/-- Where the saved old O is dropped, nothing is asked of STATE. -/
theorem State.MemoryInv.of_dropped {s : State} (hA : Memory.wf s.memA = true) (hB : Memory.wf s.memB = true)
    (hO : Memory.wf s.memO = true) (hold : s.oldO = []) : s.MemoryInv :=
  ⟨hA, hB, hO, by rw [hold, Memory.wf_nil], fun _ => hold⟩

theorem State.MemoryInv.advance {s : State} (hs : s.MemoryInv) : s.advance.MemoryInv := by
  by_cases hl : s.LastChannel
  · rw [State.advance_last hl]
    exact .of_dropped (hs.wf_mem .A) (hs.wf_mem .B) (hs.wf_mem .O) s.finish_oldO
  · rw [State.advance_not_last hl]
    exact hs.congr (by simp) (by simp) (by simp) (by simp) (by simp)

/-- O is in canonical form after a reset that cut a traversal short, however its bytes are settled (rule R122). -/
theorem State.wf_memO_abandon {s : State} (hO : Memory.wf s.memO = true) : Memory.wf s.abandon.memO = true := by
  unfold State.abandon
  split
  · exact State.wf_abandonedO hO s.gridBytes_le
  · exact hO

theorem State.MemoryInv.assertReset {s : State} (hs : s.MemoryInv) : s.assertReset.MemoryInv := by
  obtain ⟨s₀, h, hA, hB⟩ := s.assertReset_eq_resetBlock
  have hO : Memory.wf s.assertReset.memO = true := by
    by_cases hb : s.state = .busy
    · rw [State.assertReset_of_busy hb]
      exact State.wf_memO_abandon (hs.wf_mem .O)
    · rw [State.assertReset_of_not_busy hb]
      exact hs.wf_mem .O
  rw [h] at hO ⊢
  exact .of_dropped (by simpa [hA] using hs.wf_mem .A) (by simpa [hB] using hs.wf_mem .B) hO s₀.resetBlock_oldO

/-- Acceptance touches no memory; a traversal it starts saves O, which is in canonical form. -/
theorem Accepted.memoryInv {s t : State} (h : Accepted s t) (hb : s.state ≠ .busy) (hs : s.MemoryInv) : t.MemoryInv := by
  obtain ⟨hA, hB, hO, -, hnone⟩ := hs
  cases h with
  | raised e info _ _ => exact .of_dropped hA hB hO (hnone hb)
  | started op _ _ =>
    by_cases hg : s.EmptyGrid
    · rw [State.startTraversal_empty op hg]
      exact .of_dropped hA hB hO (hnone hb)
    · rw [State.startTraversal_busy op hg]
      exact ⟨hA, hB, hO, hO, fun h => absurd rfl h⟩

theorem State.MemoryInv.waitStep {s : State} (hs : s.MemoryInv) : (waitStep s).MemoryInv := by
  unfold Machine.waitStep
  split_ifs
  · exact hs
  · exact hs

theorem HostDid.memoryInv {s t : State} {op : HostOp} (h : HostDid s op t) (hs : s.MemoryInv) : t.MemoryInv := by
  cases h with
  | reset we re i v => exact hs.assertReset
  | command i v _ _ h =>
    rcases issueCommand_next h with ⟨-, rfl⟩ | ⟨hb, ha⟩
    · exact hs
    · exact ha.memoryInv hb hs
  | wrote i v _ =>
    by_cases hb : s.state = .busy
    · rwa [State.unlessBusy_of_busy _ hb]
    · rw [State.unlessBusy_of_not_busy _ hb]
      exact hs.congr (by simp) (by simp) (by simp) (by simp) (by simp)
  | readReg i v => exact hs
  | noAccess i v => exact hs
  | filled sp a bs _ ha => exact hs.setMem (Memory.wf_pokeAll (hs.wf_mem sp) ha) sp
  | dumped sp a n _ _ => exact hs
  | waited => exact hs.waitStep

/-- Settles O57: a controller step writes one byte inside the space, and each host step keeps the form. -/
theorem everyStepKeepsMemoriesCanonical : Obligations.EveryStepKeepsMemoriesCanonical := by
  intro s t hs h
  cases step_next h with
  | stayed _ _ => exact hs
  | controller m _ _ =>
    have htick : s.tick.MemoryInv := hs
    exact (htick.writeChannel m).advance
  | host l rest _ _ _ h =>
    have hrest : State.MemoryInv { s with script := rest } := hs
    exact h.memoryInv hrest

/-! ## The step that sets DONE (rules R41, R82, R83, R95) -/

/-- A step that ends a traversal is the controller's: no host step of a BUSY block answers DONE. -/
theorem controllerStep_of_step_done {s t : State} (h : step s = .next t) (hb : s.state = .busy) (hd : t.state = .done) :
    controllerStep s.tick = .next t := by
  cases step_registerEffect h with
  | kept h => simp [h.state, hb] at hd
  | configured hnb _ _ _ => exact absurd hb hnb
  | command hs _ _ => exact absurd hb hs.1
  | reset _ s₀ => simp at hd
  | controller _ m hm => exact controllerStep_of_mask hm

/-- A controller step that sets DONE is the one of the last channel. -/
theorem State.TraversedTo.last_of_done {s t : State} {k : Nat} (h : s.TraversedTo k) (hs : s.RegisterInv)
    (hb : s.state = .busy) (hk : k < s.gridBytes) (hstep : controllerStep s = .next t) (hd : t.state = .done) :
    k + 1 = s.gridBytes := by
  by_contra hne
  obtain ⟨u, hu, hub, -, -⟩ := h.controllerStep_running hs hb (by omega)
  obtain rfl : t = u := Host.Outcome.next.inj (hstep.symm.trans hu)
  simp [hd] at hub

/-- What rule R25 says of a block that is DONE. -/
theorem State.RegisterInv.of_done {s : State} (hs : s.RegisterInv) (hd : s.state = .done) :
    s.err = .noError ∧ s.x = 0 ∧ s.y = 0 ∧ s.c = 0 := by
  obtain ⟨herr, -, -, hpos⟩ := hs
  exact ⟨by simpa [hd] using herr, hpos (by simp [hd])⟩

theorem State.finalByte?_of_mask {s : State} {m : Byte} (hm : s.mask? = some m) (a : Nat) :
    s.finalByte? a = some (s.channelOut m a) := by
  rw [State.finalByte?, hm, Option.map_some]

/-- Settles O51: the step is the controller's, of the last channel, and the traversal has settled every other address. -/
theorem doneMeansTheWholeResult : Obligations.DoneMeansTheWholeResult := by
  intro s t hs hp hb h hd
  obtain ⟨k, hk, htrav⟩ := hp hb
  have hstep := controllerStep_of_step_done h hb hd
  have hinv : s.tick.RegisterInv := hs
  have htick : s.tick.TraversedTo k := htrav
  obtain ⟨u, hu, -, hui, hin, hout⟩ :=
    htick.controllerStep_last hinv hb (htick.last_of_done hinv hb hk hstep hd)
  obtain rfl : t = u := Host.Outcome.next.inj (hstep.symm.trans hu)
  obtain ⟨hn, -⟩ := hs.of_busy hb
  obtain ⟨m, hm⟩ := State.exists_mask hn
  refine ⟨⟨m, hm, fun a ha => ?_⟩, fun a ha => Memory.readByte_congr (hout a ha), hui.of_done hd⟩
  exact Memory.readByte_of_peek? ((hin a ha).trans (State.finalByte?_of_mask hm a))

end Sys2Proof.Machine
end

section
/-! PROOFS about 30_encoding.md: the command words, the register indices, the STATUS word, and the host's lines FILL, DUMP, WAIT
and CMD with a reserved word (rules R50 to R60, R103). -/

namespace Sys2Proof.Machine

/-! ## Command words (rules R52 to R54) -/

theorem decode_encode (i : Instr) : decode (encode i) = .ok i := by cases i <;> rfl

theorem decode_of_reserved {w : Word} (hembed : w ≠ 0x0001) (hextract : w ≠ 0x0002) :
    decode w = .error (.reservedWord w) := by
  rw [decode, if_neg hembed, if_neg hextract]

theorem encode_of_decode {w : Word} {i : Instr} (h : decode w = .ok i) : encode i = w := by
  unfold decode at h
  split_ifs at h with hembed hextract
  · cases h
    exact hembed.symm
  · cases h
    exact hextract.symm

/-- Settles O1: the two words are compared in turn, and what neither matches is reserved. -/
theorem decodeReadsTheTwoCommandWords : Obligations.DecodeReadsTheTwoCommandWords :=
  ⟨decode_encode .embed, decode_encode .extract, fun _ => decode_of_reserved⟩

/-- Settles O2: each command word decodes back, and only the words that matched decode to a command. -/
theorem decodeEncodeAgree : Obligations.DecodeEncodeAgree :=
  ⟨fun i _ => decode_encode i, fun _ _ => encode_of_decode⟩

/-! ## Register indices (rules R50, R51) -/

@[simp] theorem Reg.idx_ofIdx (i : RegIdx) : (Reg.ofIdx i).idx = i := by
  revert i
  decide

/-- Settles O3: `Reg.idx` and `Reg.ofIdx` undo each other. -/
theorem registerIndexMapIsOneToOne : Obligations.RegisterIndexMapIsOneToOne :=
  ⟨Reg.ofIdx_idx, Reg.idx_ofIdx, rfl, rfl, rfl, rfl, rfl, rfl, rfl, rfl⟩

/-- Settles O9: each pair of strobes selects one branch of the port's step. -/
theorem strobesOfThePort : Obligations.StrobesOfThePort := fun _ _ _ => ⟨rfl, rfl, rfl, rfl⟩

/-! ## The STATUS word (rules R15, R25, R56, R57) -/

theorem statusFields_of_append : ∀ e st : BitVec 2,
    ((0 : BitVec 12) ++ e ++ st).extractLsb' 0 2 = st ∧ ((0 : BitVec 12) ++ e ++ st).extractLsb' 2 2 = e ∧
    ((0 : BitVec 12) ++ e ++ st).extractLsb' 4 12 = 0 := by decide

theorem State.statusWord_eq {s : State} {st : RunState} {e : ErrCode} (hst : s.state = st) (he : s.err = e) :
    s.statusWord = (0 : BitVec 12) ++ e.code ++ st.code := by
  rw [State.statusWord, hst, he]

/-- Clause (a) of rule R25 outside ERROR: STATUS is the code of STATE alone. -/
theorem State.RegisterInv.statusWord_of_not_error {s : State} (hs : s.RegisterInv) {st : RunState} (hst : s.state = st)
    (h : st ≠ .error) : s.statusWord = (0 : BitVec 12) ++ ErrCode.noError.code ++ st.code := by
  obtain ⟨herr, -⟩ := hs
  exact State.statusWord_eq hst (not_not.1 fun hne => h (hst.symm.trans (herr.1 hne)))

/-- Clause (a) of rule R25 in ERROR. -/
theorem State.RegisterInv.err_of_error {s : State} (hs : s.RegisterInv) (hst : s.state = .error) : s.err ≠ .noError := by
  obtain ⟨herr, -⟩ := hs
  exact herr.2 hst

/-- Settles O4: outside ERROR the invariant leaves no error, and in ERROR one of the three. -/
theorem statusWordValues : Obligations.StatusWordValues := by
  refine ⟨rfl, rfl, rfl, rfl, rfl, rfl, rfl, rfl, fun s => statusFields_of_append s.err.code s.state.code, fun s hs => ?_⟩
  cases hst : s.state with
  | idle => exact .inl ⟨rfl, hs.statusWord_of_not_error hst (by decide)⟩
  | busy => exact .inr (.inl ⟨rfl, hs.statusWord_of_not_error hst (by decide)⟩)
  | done => exact .inr (.inr (.inl ⟨rfl, hs.statusWord_of_not_error hst (by decide)⟩))
  | error =>
    refine .inr (.inr (.inr ?_))
    cases he : s.err with
    | noError => exact absurd he (hs.err_of_error hst)
    | invalidConfiguration => exact .inl ⟨rfl, rfl, State.statusWord_eq hst he⟩
    | dimensionMismatch => exact .inr (.inl ⟨rfl, rfl, State.statusWord_eq hst he⟩)
    | illegalCommand => exact .inr (.inr ⟨rfl, rfl, State.statusWord_eq hst he⟩)

/-! ## FILL and DUMP (rules R21, R59) -/

theorem State.mem_setMem (s : State) (m : Memory) (sp sp' : Space) :
    (s.setMem m sp).mem sp' = if sp' = sp then m else s.mem sp' := by
  cases sp <;> cases sp' <;> rfl

theorem State.read_setMem_same (s : State) (m : Memory) (sp : Space) (b : Nat) :
    (s.setMem m sp).read sp b = Memory.readByte sp m b := by
  rw [State.read, State.mem_setMem, if_pos rfl]

theorem State.read_setMem_other (s : State) (m : Memory) {sp sp' : Space} (h : sp' ≠ sp) (b : Nat) :
    (s.setMem m sp).read sp' b = s.read sp' b := by
  rw [State.read, State.mem_setMem, if_neg h, State.read]

theorem hostStep_fill {s : State} (hb : s.state ≠ .busy) (sp : Space) {a : Nat} {bs : List Byte}
    (ha : a + bs.length ≤ Config.addrLimit) :
    hostStep (.fill sp a bs) s = .next (s.setMem (Memory.pokeAll (s.mem sp) a bs) sp) :=
  (if_neg hb).trans (if_pos ha)

theorem hostStep_dump {s : State} {sp : Space} (hb : s.state ≠ .busy ∨ sp ≠ .O) {a n : Nat}
    (ha : a + n ≤ Config.addrLimit) :
    hostStep (.dump sp a n) s = .next (s.record (.bytes sp a (Memory.readBytes sp (s.mem sp) a n))) :=
  (if_neg (not_and_or.2 hb)).trans (if_pos ha)

theorem Memory.readByte_pokeAll_inside (sp : Space) (m : Memory) (a : Nat) {bs : List Byte} {i : Nat}
    (hi : i < bs.length) : Memory.readByte sp (Memory.pokeAll m a bs) (a + i) = bs[i] := by
  apply Memory.readByte_of_peek?
  rw [Memory.peek?_pokeAll, if_pos (by omega), Nat.add_sub_cancel_left, List.getElem?_eq_getElem hi]

theorem Memory.readByte_pokeAll_outside (sp : Space) (m : Memory) {a b : Nat} {bs : List Byte}
    (hb : b < a ∨ a + bs.length ≤ b) : Memory.readByte sp (Memory.pokeAll m a bs) b = Memory.readByte sp m b := by
  apply Memory.readByte_congr
  rw [Memory.peek?_pokeAll, if_neg (by omega)]

/-- Settles O20: the memory FILL leaves is the one its bytes are poked into, read at, below and above them. -/
theorem fillStoresItsBytes : Obligations.FillStoresItsBytes := by
  intro s sp a bs hb ha
  refine ⟨Memory.pokeAll (s.mem sp) a bs, hostStep_fill hb sp ha, fun i hi => ?_, fun sp' b h => ?_⟩
  · rw [State.read_setMem_same, Memory.readByte_pokeAll_inside sp _ a hi]
  · by_cases hsp : sp' = sp
    · subst hsp
      have hout : b < a ∨ a + bs.length ≤ b := h.resolve_left fun hne => hne rfl
      rw [State.read_setMem_same, Memory.readByte_pokeAll_outside sp' _ hout, State.read]
    · exact State.read_setMem_other s _ hsp b

/-- Settles O21, with the bytes a read of the memory returns. -/
theorem dumpReturnsTheBytes : Obligations.DumpReturnsTheBytes := fun s sp a n hb ha =>
  ⟨Memory.readBytes sp (s.mem sp) a n, hostStep_dump hb ha, Memory.readBytes_length sp _ a n,
    fun i hi => Memory.readBytes_getElem? sp _ a n i hi⟩

/-! ## WAIT (rules R60, R128) -/

theorem waitStep_of_not_busy {s : State} (hb : s.state ≠ .busy) : waitStep s = readRegStep .status s := if_neg hb

/-- Settles O23: not BUSY the host takes the line, and BUSY a WAIT holds back whatever its delay. -/
theorem waitEndsWithStatus : Obligations.WaitEndsWithStatus := by
  refine ⟨fun s d rest hs hb => ?_, fun s d rest hs hb => ?_⟩
  · have hrest : ({ s with script := rest } : State).state ≠ .busy := hb
    rw [step_of_hostLine hs (.inl hb)]
    exact congrArg _ (waitStep_of_not_busy hrest)
  · have hholds : ∀ l ∈ s.script.head?, l.holdsBack = true := by
      simp [hs, ScriptLine.holdsBack_iff]
    rw [step_of_controller hb hholds, State.tick, hs, countDown]

/-! ## A reserved word (rules R54, R103) -/

theorem issueCommand_of_reserved {s : State} (hb : s.state ≠ .busy) {v : Word} (hembed : v ≠ 0x0001)
    (hextract : v ≠ 0x0002) : issueCommand v s = .next (s.raiseError .illegalCommand v) := by
  rw [issueCommand, decode_of_reserved hembed hextract]
  exact congrArg _ (State.unlessBusy_of_not_busy _ hb)

/-- Settles O31: the port hands the word to the decoder, which rejects it. -/
theorem illegalCommandIsRaised : Obligations.IllegalCommandIsRaised := by
  intro s v hb hembed hextract
  rw [hostStep_wr, writeReg_cmd, issueCommand_of_reserved hb hembed hextract]
  rfl

end Sys2Proof.Machine
end

section
/-! PROOFS about 40_mask_generator.md: the mask is 2^n - 1 inside its domain (rules R61 to R63), and NMASK is its complement
on 8 bits (rule R64). -/

namespace Sys2Proof.Machine

/-- Rule R66: the shift and the subtraction lose nothing on 8 bits. -/
theorem mask?_toNat {n : Nat} {m : Byte} (h : mask? n = some m) : m.toNat = 2 ^ n - 1 := by
  obtain ⟨⟨-, h8⟩, rfl⟩ := mask?_eq_some.1 h
  have hpow : 2 ^ n ≤ 2 ^ 8 := Nat.pow_le_pow_right (by decide) h8
  rw [BitVec.toNat_ofNat, Nat.one_shiftLeft, Nat.mod_eq_of_lt (by omega)]

theorem mask?_eq_none {n : Nat} (h : n < 1 ∨ 8 < n) : mask? n = none :=
  Option.eq_none_iff_forall_ne_some.2 fun _ hm => by
    obtain ⟨hlegal, -⟩ := mask?_eq_some.1 hm
    omega

theorem nmask?_of_mask {n : Nat} {m : Byte} (h : mask? n = some m) : nmask? n = some (complement m) := by
  rw [nmask?, h, Option.map_some]

theorem nmask?_of_no_mask {n : Nat} (h : mask? n = none) : nmask? n = none := by
  rw [nmask?, h, Option.map_none]

theorem complement_getLsbD {n i : Nat} {m : Byte} (h : mask? n = some m) (hi : i < 8) :
    (complement m).getLsbD i = decide (n ≤ i) := by
  rw [complement_eq_not, BitVec.getLsbD_not, mask?_getLsbD h hi]
  simp only [hi, decide_true, Bool.true_and, ← decide_not, Nat.not_lt]

theorem complement_toNat (m : Byte) : (complement m).toNat = 255 - m.toNat := by
  rw [complement_eq_not, BitVec.toNat_not]

/-- Rule R64: a complement taken on 32 bits has the same low 8 bits. -/
theorem setWidth_not_eq_complement (m : Byte) : (~~~(m.setWidth 32)).setWidth 8 = complement m := by
  rw [complement_eq_not, BitVec.setWidth_not (by decide), BitVec.setWidth_setWidth_of_le _ (by decide),
    BitVec.setWidth_eq]

/-- Settles O10: the rows of the table by evaluation, and the formula by the mask as a number. -/
theorem maskTable : Obligations.MaskTable :=
  ⟨rfl, rfl, rfl, rfl, rfl, rfl, rfl, rfl, rfl, rfl, rfl, rfl, rfl, rfl, rfl, rfl,
    fun _ _ h => ⟨mask?_toNat h, nmask?_of_mask h⟩⟩

/-- Settles O11: inside the domain by the bits of the mask and of its complement, outside it by the missing mask. -/
theorem maskSelectsTheLowBits : Obligations.MaskSelectsTheLowBits := by
  refine ⟨fun n h1 h8 => ?_, fun n h => ⟨mask?_eq_none h, nmask?_of_no_mask (mask?_eq_none h)⟩⟩
  obtain ⟨m, hm⟩ : ∃ m, mask? n = some m := ⟨_, mask?_eq_some.2 ⟨⟨h1, h8⟩, rfl⟩⟩
  have hnum : m.toNat = (1 <<< n) - 1 := by rw [mask?_toNat hm, Nat.one_shiftLeft]
  exact ⟨m, complement m, hm, nmask?_of_mask hm, hnum, fun i => mask?_getLsbD hm, fun i => complement_getLsbD hm, rfl,
    complement_eq_not m, complement_toNat m, setWidth_not_eq_complement m⟩

end Sys2Proof.Machine
end

section
/-! PROOFS about 41_channel_merger.md: the merge is a multiplexer whose select is the mask (rules R71 to R73), and the split
keeps the low n bits in place (rules R74 to R76). -/

namespace Sys2Proof.Machine

theorem mask?_eight : mask? 8 = some 0xFF := rfl

/-! ## The merge under any select -/

/-- Rule R72: the mask is the select of a multiplexer. -/
theorem embedCh_getLsbD_select (h p m : Byte) {i : Nat} (hi : i < 8) :
    (embedCh h p m).getLsbD i = if m.getLsbD i then p.getLsbD i else h.getLsbD i := by
  rw [embedCh, complement_eq_not, BitVec.getLsbD_or, BitVec.getLsbD_and, BitVec.getLsbD_and, BitVec.getLsbD_not]
  cases m.getLsbD i <;> simp [hi]

/-- A byte that has the selected bits is the merge. -/
theorem eq_embedCh_of_select {h p m o : Byte}
    (hbit : ∀ i, i < 8 → o.getLsbD i = if m.getLsbD i then p.getLsbD i else h.getLsbD i) : o = embedCh h p m :=
  BitVec.eq_of_getLsbD_eq fun i hi => by rw [hbit i hi, embedCh_getLsbD_select h p m hi]

theorem embedCh_and_mask (h p m : Byte) : embedCh h p m &&& m = p &&& m := by
  refine BitVec.eq_of_getLsbD_eq fun i hi => ?_
  rw [BitVec.getLsbD_and, BitVec.getLsbD_and, embedCh_getLsbD_select h p m hi]
  cases m.getLsbD i <;> simp

/-- Rule R76: a split does not see the host's bits. -/
theorem extractCh_embedCh (h p m : Byte) : extractCh (embedCh h p m) m = extractCh p m :=
  embedCh_and_mask h p m

theorem embedCh_and_not_mask (h p m : Byte) : embedCh h p m &&& ~~~m = h &&& ~~~m := by
  refine BitVec.eq_of_getLsbD_eq fun i hi => ?_
  rw [BitVec.getLsbD_and, BitVec.getLsbD_and, BitVec.getLsbD_not, embedCh_getLsbD_select h p m hi]
  cases m.getLsbD i <;> simp

theorem merge_terms_disjoint (h p m : Byte) : (h &&& ~~~m) &&& (p &&& m) = 0 := by
  refine BitVec.eq_of_getLsbD_eq fun i hi => ?_
  rw [BitVec.getLsbD_and, BitVec.getLsbD_and, BitVec.getLsbD_and, BitVec.getLsbD_not]
  cases m.getLsbD i <;> simp

theorem embedCh_eq_or (h p m : Byte) : embedCh h p m = (h &&& ~~~m) ||| (p &&& m) := by
  rw [embedCh, complement_eq_not]

theorem embedCh_eq_add (h p m : Byte) : embedCh h p m = (h &&& ~~~m) + (p &&& m) := by
  rw [embedCh_eq_or, BitVec.add_eq_or_of_and_eq_zero _ _ (merge_terms_disjoint h p m)]

theorem embedCh_eq_xor (h p m : Byte) : embedCh h p m = (h &&& ~~~m) ^^^ (p &&& m) := by
  refine (eq_embedCh_of_select fun i hi => ?_).symm
  rw [BitVec.getLsbD_xor, BitVec.getLsbD_and, BitVec.getLsbD_and, BitVec.getLsbD_not]
  cases m.getLsbD i <;> simp [hi]

theorem embedCh_self (h m : Byte) : embedCh h h m = h :=
  (eq_embedCh_of_select fun i _ => (ite_self (h.getLsbD i)).symm).symm

theorem embedCh_zero (h m : Byte) : embedCh h 0 m = h &&& ~~~m := by
  simp [embedCh_eq_or]

theorem zero_embedCh (s m : Byte) : embedCh 0 s m = s &&& m := by
  simp [embedCh_eq_or]

theorem embedCh_ones (h m : Byte) : embedCh h 0xFF m = h ||| m := by
  refine (eq_embedCh_of_select fun i hi => ?_).symm
  have hone : (0xFF : Byte).getLsbD i = true := by rw [mask?_getLsbD mask?_eight hi, decide_eq_true hi]
  rw [BitVec.getLsbD_or, hone]
  cases m.getLsbD i <;> simp

/-! ## The merge under MASK(n) -/

/-- The bits of the host from `n` upward stay. -/
theorem embedCh_div {n : Nat} {m : Byte} (hm : mask? n = some m) (h p : Byte) :
    (embedCh h p m).toNat / 2 ^ n = h.toNat / 2 ^ n := by
  refine Nat.eq_of_testBit_eq fun i => ?_
  rw [Nat.testBit_div_two_pow, Nat.testBit_div_two_pow, BitVec.testBit_toNat, BitVec.testBit_toNat]
  by_cases hi : i + n < 8
  · rw [embedCh_getLsbD hm h p hi, if_neg (by omega)]
  · rw [BitVec.getLsbD_of_ge _ _ (by omega), BitVec.getLsbD_of_ge _ _ (by omega)]

/-- The low `n` bits are the payload's. -/
theorem embedCh_mod {n : Nat} {m : Byte} (hm : mask? n = some m) (h p : Byte) :
    (embedCh h p m).toNat % 2 ^ n = p.toNat % 2 ^ n := by
  rw [← extractCh_toNat hm, ← extractCh_toNat hm, extractCh_embedCh]

/-- Rule R72, as a slice. -/
theorem embedCh_toNat {n : Nat} {m : Byte} (hm : mask? n = some m) (h p : Byte) :
    (embedCh h p m).toNat = h.toNat / 2 ^ n * 2 ^ n + p.toNat % 2 ^ n := by
  rw [← embedCh_div hm h p, ← embedCh_mod hm h p, Nat.div_add_mod']

/-- Rule R73: the bits of the payload from `n` upward have no effect. -/
theorem embedCh_congr_low {n : Nat} {m p q : Byte} (hm : mask? n = some m) (h : Byte)
    (hlow : ∀ i, i < n → p.getLsbD i = q.getLsbD i) : embedCh h p m = embedCh h q m := by
  refine BitVec.eq_of_getLsbD_eq fun i hi => ?_
  rw [embedCh_getLsbD hm h p hi, embedCh_getLsbD hm h q hi]
  split_ifs with hin
  · exact hlow i hin
  · rfl

/-- Settles O12: the mask and its complement each select one side of the merge. -/
theorem mergeKeepsHighTakesLow : Obligations.MergeKeepsHighTakesLow := by
  intro n m nm h p hm hnm
  rw [nmask?_eq_not hm hnm]
  exact ⟨embedCh_and_not_mask h p m, embedCh_and_mask h p m⟩

/-- Settles O13: the merge by its bits, as a number, and by its two disjoint terms. -/
theorem mergeIsAPerBitMux : Obligations.MergeIsAPerBitMux := by
  intro n m nm h p hm hnm
  rw [nmask?_eq_not hm hnm]
  exact ⟨fun i => embedCh_getLsbD hm h p, fun i => embedCh_getLsbD_select h p m, embedCh_toNat hm h p,
    BitVec.and_not_self m, merge_terms_disjoint h p m, embedCh_eq_add h p m, embedCh_eq_xor h p m⟩

/-- Settles O14: each corner case is the multiplexer with a constant select or a constant input. -/
theorem mergeCornerCases : Obligations.MergeCornerCases := by
  refine ⟨fun h p => ?_, fun h p => rfl, fun n m nm h hm hnm => ?_, fun n m h p q hm => embedCh_congr_low hm h⟩
  · exact BitVec.eq_of_getLsbD_eq fun i hi => by rw [embedCh_getLsbD mask?_eight h p hi, if_pos hi]
  · rw [nmask?_eq_not hm hnm]
    exact ⟨embedCh_self h m, embedCh_zero h m, embedCh_ones h m⟩

/-! ## The split -/

theorem extractCh_getLsbD {n i : Nat} {m : Byte} (hm : mask? n = some m) (s : Byte) (hi : i < 8) :
    (extractCh s m).getLsbD i = (decide (i < n) && s.getLsbD i) := by
  rw [extractCh, BitVec.getLsbD_and, mask?_getLsbD hm hi, Bool.and_comm]

/-- Rule R76: the split gives a byte back exactly where its value fits in `n` bits. -/
theorem extractCh_eq_self_iff {n : Nat} {m : Byte} (hm : mask? n = some m) (s : Byte) :
    extractCh s m = s ↔ s.toNat < 2 ^ n := by
  rw [← BitVec.toNat_inj, extractCh_toNat hm, Nat.mod_eq_iff_lt (Nat.two_pow_pos n).ne']

/-- A split by MASK(1) is one bit. -/
theorem extractCh_one_bit {m : Byte} (hm : mask? 1 = some m) (s : Byte) : extractCh s m = 0 ∨ extractCh s m = 1 := by
  have hbit : (extractCh s m).toNat = s.toNat % 2 := extractCh_toNat hm s
  rcases Nat.mod_two_eq_zero_or_one s.toNat with hz | ho
  · exact .inl (BitVec.eq_of_toNat_eq (hbit.trans hz))
  · exact .inr (BitVec.eq_of_toNat_eq (hbit.trans ho))

/-- Settles O15: the split by its bits, and by its value modulo 2^n. -/
theorem splitKeepsTheLowBitsInPlace : Obligations.SplitKeepsTheLowBitsInPlace := by
  intro n m s hm
  refine ⟨rfl, fun i => extractCh_getLsbD hm s, extractCh_toNat hm s, (zero_embedCh s m).symm, ?_, ?_, ?_⟩
  · rintro rfl
    exact (extractCh_eq_self_iff hm s).2 s.isLt
  · rintro rfl
    exact extractCh_one_bit hm s
  · rw [extractCh_toNat hm]
    exact Nat.le_pred_of_lt (Nat.mod_lt _ (Nat.two_pow_pos n))

/-- Settles O16: the split does not see the host's bits, so it is the split of the payload. -/
theorem splitOfMergeIsThePayloadsLowBits : Obligations.SplitOfMergeIsThePayloadsLowBits := by
  intro n m h p hm
  rw [extractCh_embedCh]
  refine ⟨rfl, extractCh_eq_self_iff hm p, ?_⟩
  rintro rfl
  exact (extractCh_eq_self_iff hm p).2 p.isLt

end Sys2Proof.Machine
end

section
/-! PROOFS about 42_traversal_commands.md, first part: every step of either agent keeps a running traversal exactly as far as its
position says (rules R84, R86, R94, R95). -/

namespace Sys2Proof.Machine

/-! ## A step while a traversal runs, and a step that starts one -/

/-- While BUSY a host step resets the block, waits, or at most returns a read: a CMD write and a configuration write are
ignored, and a FILL is no move of the host's (rules R17, R42). -/
theorem HostDid.of_busy {s t : State} {op : HostOp} (h : HostDid s op t) (hb : s.state = .busy) :
    (op.endsTraversal = true ∧ t.state = .idle) ∨ (op = .wait ∧ t = waitStep s) ∨
      (op.endsTraversal = false ∧ ∃ log, t = { s with log := log }) := by
  cases h with
  | reset we re i v =>
    obtain ⟨s₀, h₀, -, -⟩ := s.assertReset_eq_resetBlock
    exact .inl ⟨rfl, by rw [h₀, State.resetBlock_state]⟩
  | command i v _ _ h =>
    rcases issueCommand_next h with ⟨-, rfl⟩ | ⟨hnb, -⟩
    · exact .inr (.inr ⟨rfl, _, rfl⟩)
    · exact absurd hb hnb
  | wrote i v _ =>
    rw [State.unlessBusy_of_busy _ hb]
    exact .inr (.inr ⟨rfl, _, rfl⟩)
  | readReg i v => exact .inr (.inr ⟨rfl, _, rfl⟩)
  | noAccess i v => exact .inr (.inr ⟨rfl, _, rfl⟩)
  | filled sp a bs hnb _ => exact absurd hb hnb
  | dumped sp a n _ _ => exact .inr (.inr ⟨rfl, _, rfl⟩)
  | waited => exact .inr (.inl ⟨rfl, rfl⟩)

/-- A traversal is started by acceptance only. -/
theorem HostDid.accepted_of_starts {s t : State} {op : HostOp} (h : HostDid s op t) (hb : s.state ≠ .busy)
    (ht : t.state = .busy) : Accepted s t := by
  cases h with
  | reset we re i v =>
    obtain ⟨s₀, h₀, -, -⟩ := s.assertReset_eq_resetBlock
    simp [h₀] at ht
  | command i v _ _ h =>
    rcases issueCommand_next h with ⟨hbusy, -⟩ | ⟨-, ha⟩
    · exact absurd hbusy hb
    · exact ha
  | wrote i v _ =>
    rw [State.unlessBusy_of_not_busy _ hb, State.writeConfig_state] at ht
    exact absurd ht hb
  | readReg i v => exact absurd ht hb
  | noAccess i v => exact absurd ht hb
  | filled sp a bs _ _ => exact absurd ((SameRegisters.setMem s _ sp).state.symm.trans ht) hb
  | dumped sp a n _ _ => exact absurd ht hb
  | waited => exact absurd ((SameRegisters.waitStep s).state.symm.trans ht) hb

/-! ## The progress of a traversal, step by step -/

theorem State.gridBytes_pos {s : State} (h : ¬s.EmptyGrid) : 0 < s.gridBytes := by
  obtain ⟨hw, hh⟩ := State.not_emptyGrid_iff.1 h
  exact Nat.mul_pos (by omega) hh

theorem State.not_emptyGrid_of_started {s : State} {op : Operation} (hb : (s.startTraversal op).state = .busy) :
    ¬s.EmptyGrid := fun he => by simp [State.startTraversal_state, he] at hb

/-- A traversal that acceptance has started stands at channel 0. -/
theorem Accepted.progress {s t : State} (h : Accepted s t) : t.Progress := by
  intro hb
  cases h with
  | raised e info _ _ => simp at hb
  | started op _ _ =>
    have he := State.not_emptyGrid_of_started hb
    exact ⟨0, by rw [State.startTraversal_gridBytes]; exact State.gridBytes_pos he,
      State.startTraversal_traversedTo op he⟩

/-- A controller step takes the traversal from channel `k` to channel `k + 1`, or ends it. -/
theorem State.TraversedTo.controllerStep_next {s t : State} {k : Nat} (h : s.TraversedTo k) (hs : s.RegisterInv)
    (hb : s.state = .busy) (hk : k < s.gridBytes) (hstep : controllerStep s = .next t) :
    (t.state = .done ∧ k + 1 = s.gridBytes) ∨
      (t.state = .busy ∧ k + 1 < s.gridBytes ∧ t.gridBytes = s.gridBytes ∧ t.TraversedTo (k + 1)) := by
  rcases Nat.lt_or_eq_of_le (Nat.succ_le_of_lt hk) with hlt | hlast
  · obtain ⟨u, hu, hub, -, huk⟩ := h.controllerStep_running hs hb hlt
    obtain rfl : t = u := Host.Outcome.next.inj (hstep.symm.trans hu)
    obtain ⟨-, hw, hh, -⟩ := controllerStep_keeps hstep
    exact .inr ⟨hub, hlt, State.gridBytes_congr hw hh, huk⟩
  · obtain ⟨u, hu, hud, -⟩ := h.controllerStep_last hs hb hlast
    obtain rfl : t = u := Host.Outcome.next.inj (hstep.symm.trans hu)
    exact .inl ⟨hud, hlast⟩

theorem State.Progress.controllerStep {s t : State} (hp : s.Progress) (hs : s.RegisterInv) (hb : s.state = .busy)
    (hstep : controllerStep s = .next t) : t.Progress := by
  intro htb
  obtain ⟨k, hk, htrav⟩ := hp hb
  rcases htrav.controllerStep_next hs hb hk hstep with ⟨hd, -⟩ | ⟨-, hlt, hg, hnext⟩
  · simp [hd] at htb
  · exact ⟨k + 1, hg.symm ▸ hlt, hnext⟩

/-- A host step leaves a running traversal where it is, cuts it short, or starts one. -/
theorem HostDid.progress {s t : State} {op : HostOp} (h : HostDid s op t) (hp : s.Progress) : t.Progress := by
  by_cases hb : s.state = .busy
  · rcases h.of_busy hb with ⟨-, hidle⟩ | ⟨-, rfl⟩ | ⟨-, log, rfl⟩
    · intro htb
      simp [hidle] at htb
    · rw [waitStep, if_pos hb]
      exact hp
    · exact hp
  · exact fun htb => (h.accepted_of_starts hb htb).progress htb

/-- Settles O58: a controller step settles one more channel, and a host step settles none. -/
theorem everyStepKeepsTheTraversal : Obligations.EveryStepKeepsTheTraversal := by
  intro s t hs hp h
  cases step_next h with
  | stayed _ _ => exact hp
  | controller m hb hm =>
    have htick : s.tick.Progress := hp
    exact htick.controllerStep hs hb (controllerStep_of_mask hm)
  | host l rest _ _ _ h =>
    have hrest : State.Progress { s with script := rest } := hp
    exact h.progress hrest

end Sys2Proof.Machine
end

section
/-! PROOFS about 42_traversal_commands.md, second part: the acceptance of a command, branch by branch (rules R81 to R83, R89),
and what a controller step writes (rules R84, R85). -/

namespace Sys2Proof.Machine

/-! ## Acceptance, branch by branch (rule R81) -/

theorem exec_embed_accepted {s : State} (hb : s.state ≠ .busy) (hn : s.NLegal) (hd : s.DimsMatch) :
    exec .embed s = .next (s.startTraversal .embed) := by
  rw [exec_embed_eq hb, if_pos hn, if_pos hd]

theorem exec_extract_accepted {s : State} (hb : s.state ≠ .busy) (hn : s.NLegal) :
    exec .extract s = .next (s.startTraversal .extract) := by
  rw [exec_extract_eq hb, if_pos hn]

theorem exec_embed_dimensionMismatch {s : State} (hb : s.state ≠ .busy) (hn : s.NLegal) (hd : ¬s.DimsMatch) :
    exec .embed s = .next (s.raiseError .dimensionMismatch 0) := by
  rw [exec_embed_eq hb, if_pos hn, if_neg hd]

/-- The check of N is the first of both commands. -/
theorem exec_invalidConfiguration {s : State} (i : Instr) (hb : s.state ≠ .busy) (hn : ¬s.NLegal) :
    exec i s = .next (s.raiseError .invalidConfiguration s.nsig) := by
  cases i with
  | embed => rw [exec_embed_eq hb, if_neg hn]
  | extract => rw [exec_extract_eq hb, if_neg hn]

theorem State.not_nLegal_iff {s : State} : ¬s.NLegal ↔ s.nsig.toNat < 1 ∨ 8 < s.nsig.toNat :=
  not_and_or.trans (or_congr Nat.not_le Nat.not_le)

theorem State.not_dimsMatch_iff {s : State} : ¬s.DimsMatch ↔ s.aW ≠ s.bW ∨ s.aH ≠ s.bH := not_and_or

/-- Settles O24: while BUSY nothing, else the word is decoded and each check of its command gives one branch. -/
theorem commandAcceptance : Obligations.CommandAcceptance := by
  intro s v
  refine ⟨s.memO, ?_⟩
  rw [hostStep_wr, writeReg_cmd]
  by_cases hb : s.state = .busy
  · rw [if_pos hb, issueCommand_of_busy hb]
  rw [if_neg hb]
  by_cases hreserved : v ≠ 0x0001 ∧ v ≠ 0x0002
  · obtain ⟨hembed, hextract⟩ := hreserved
    rw [if_pos ⟨hembed, hextract⟩, issueCommand_of_reserved hb hembed hextract]
    rfl
  rw [if_neg hreserved]
  obtain ⟨i, rfl⟩ : ∃ i, v = encode i := by
    rcases not_and_or.1 hreserved with h | h
    · exact ⟨.embed, not_not.1 h⟩
    · exact ⟨.extract, not_not.1 h⟩
  rw [issueCommand_encode]
  by_cases hn : s.NLegal
  · rw [if_neg fun h => State.not_nLegal_iff.2 h hn]
    cases i with
    | embed =>
      by_cases hd : s.DimsMatch
      · rw [if_neg fun h => State.not_dimsMatch_iff.2 h.2 hd, exec_embed_accepted hb hn hd]
        rfl
      · rw [if_pos ⟨rfl, State.not_dimsMatch_iff.1 hd⟩, exec_embed_dimensionMismatch hb hn hd]
        rfl
    | extract =>
      rw [if_neg fun h => absurd h.1 (by decide), exec_extract_accepted hb hn]
      rfl
  · rw [if_pos (State.not_nLegal_iff.1 hn), exec_invalidConfiguration i hb hn]
    rfl

/-- Settles O25: the checks pass, and the grid is not empty. -/
theorem embedStartsItsTraversal : Obligations.EmbedStartsItsTraversal := by
  intro s hb h1 h8 hw hh hw0 hh0
  rw [exec_embed_accepted hb ⟨h1, h8⟩ ⟨hw, hh⟩, State.startTraversal_busy _ (not_or.2 ⟨hw0, hh0⟩)]
  rfl

/-- Settles O26: the check of N passes, and the grid is not empty. -/
theorem extractStartsItsTraversal : Obligations.ExtractStartsItsTraversal := by
  intro s hb h1 h8 hw0 hh0
  rw [exec_extract_accepted hb ⟨h1, h8⟩, State.startTraversal_busy _ (not_or.2 ⟨hw0, hh0⟩)]
  rfl

/-- Settles O42: an accepted command finds the grid empty, and the check of EMBED comes before. -/
theorem emptyGridIsDoneAtOnce : Obligations.EmptyGridIsDoneAtOnce := by
  intro s hb h1 h8 he
  refine ⟨?_, fun hw hh => ?_, fun hd => ?_⟩
  · rw [exec_extract_accepted hb ⟨h1, h8⟩, State.startTraversal_empty _ he]
    rfl
  · rw [exec_embed_accepted hb ⟨h1, h8⟩ ⟨hw, hh⟩, State.startTraversal_empty _ he]
    rfl
  · rw [exec_embed_dimensionMismatch hb ⟨h1, h8⟩ (State.not_dimsMatch_iff.2 hd)]
    rfl

/-! ## The frame of a command and of a controller step (rules R84, R92) -/

theorem exec_next {i : Instr} {s t : State} (h : exec i s = .next t) :
    (s.state = .busy ∧ t = s) ∨ (s.state ≠ .busy ∧ Accepted s t) :=
  issueCommand_next ((issueCommand_encode i s).trans h)

theorem Accepted.keeps {s t : State} (h : Accepted s t) :
    t.nsig = s.nsig ∧ t.aW = s.aW ∧ t.aH = s.aH ∧ t.bW = s.bW ∧ t.bH = s.bH ∧
    t.abandons = s.abandons ∧ t.script = s.script ∧ t.log = s.log ∧ ∀ sp, t.mem sp = s.mem sp := by
  cases h with
  | raised e info _ _ => exact ⟨rfl, rfl, rfl, rfl, rfl, rfl, rfl, rfl, fun sp => by cases sp <;> rfl⟩
  | started op _ _ => exact ⟨by simp, by simp, by simp, by simp, by simp, by simp, by simp, by simp,
      fun sp => by cases sp <;> simp⟩

theorem State.read_congr {s t : State} {sp : Space} (h : t.mem sp = s.mem sp) (a : Nat) : t.read sp a = s.read sp a := by
  rw [State.read, h, State.read]

/-- A controller step writes one byte of O, at the address the position gives. -/
theorem controllerStep_read_O {s t : State} (h : controllerStep s = .next t) {a : Nat} (ha : a ≠ s.addr) :
    t.read .O a = s.read .O a := by
  obtain ⟨m, -, rfl⟩ := controllerStep_next h
  apply Memory.readByte_congr
  rw [State.mem_O, State.advance_memO, State.writeChannel_memO, Memory.peek?_poke_other _ _ ha.symm, State.mem_O]

theorem State.RegisterInv.addr_lt_gridBytes {s : State} (hs : s.RegisterInv) (hb : s.state = .busy) :
    s.addr < s.gridBytes := by
  obtain ⟨-, -, -, hx, hy, hc, -⟩ := hs.of_busy hb
  exact idx_lt hx hy (by omega)

/-- Settles O44: acceptance keeps whole memories, a controller step all of A and B and O off its address. -/
theorem commandsChangeNothingElse : Obligations.CommandsChangeNothingElse := by
  refine ⟨fun i s t h => ?_, fun s t h => ?_, fun s hs hb => hs.addr_lt_gridBytes hb⟩
  · rcases exec_next h with ⟨-, rfl⟩ | ⟨-, ha⟩
    · simp
    · obtain ⟨hn, hw, hh, hbw, hbh, hab, hsc, hlog, hmem⟩ := ha.keeps
      exact ⟨hn, hw, hh, hbw, hbh, hab, hsc, hlog, fun sp a => State.read_congr (hmem sp) a⟩
  · obtain ⟨hn, hw, hh, hbw, hbh, herr, hinfo, hl, hA, hB, hab, hsc, hlog⟩ := controllerStep_keeps h
    exact ⟨hn, hw, hh, hbw, hbh, herr, hinfo, hl, hab, hsc, hlog,
      fun a => ⟨State.read_congr (sp := .A) hA a, State.read_congr (sp := .B) hB a⟩, fun a ha => controllerStep_read_O h ha⟩

/-! ## The effect of a controller step (rules R84, R85) -/

theorem State.nextMove_ne_controller {s : State} (hb : s.state ≠ .busy) : s.nextMove ≠ .controller := by
  unfold State.nextMove
  split <;> simp [hb]

/-- Settles O43: a controller is next only while BUSY, and its step is the write of one channel and then `State.advance`, whose
branches are the statement's. -/
theorem controllerStepEffect : Obligations.ControllerStepEffect := by
  refine ⟨fun s hb => State.nextMove_ne_controller hb, fun s hb hs => ?_, fun s m _ hm => ?_⟩
  · rw [step_of_controller hb (by simp [hs]), State.tick, hs, countDown, ← hs]
  · refine ⟨s.channelOut m s.addr, [], rfl, ?_⟩
    rw [controllerStep_of_mask hm]
    rfl

end Sys2Proof.Machine
end

section
/-! PROOFS about 42_traversal_commands.md, third part: a command from acceptance to DONE, what it leaves in O and what it does
not look at (rules R82, R83, R86, R88, R90, R91, R93). -/

namespace Sys2Proof.Machine

/-! ## A command that answers no error has started a traversal -/

/-- The operation a command latches in OPL (rule R18). -/
def operationOf : Instr → Operation
  | .embed => .embed
  | .extract => .extract

/-- A command that is not rejected has passed its checks, and answers the start of its traversal. -/
theorem exec_started {i : Instr} {s t : State} (hb : s.state ≠ .busy) (h : exec i s = .next t) (ht : t.state ≠ .error) :
    t = s.startTraversal (operationOf i) ∧ s.NLegal ∧ (operationOf i = .embed → s.DimsMatch) := by
  cases i with
  | embed =>
    rw [exec_embed_eq hb] at h
    split_ifs at h with hn hd
    · exact ⟨(Host.Outcome.next.inj h).symm, hn, fun _ => hd⟩
    · cases h
      exact absurd rfl ht
    · cases h
      exact absurd rfl ht
  | extract =>
    rw [exec_extract_eq hb] at h
    split_ifs at h with hn
    · exact ⟨(Host.Outcome.next.inj h).symm, hn, fun ho => by cases ho⟩
    · cases h
      exact absurd rfl ht

/-- The byte a command gives a channel whose bytes in A and B are `a` and `b` (rules R82, R83). -/
def commandByte : Operation → Byte → Byte → Byte → Byte
  | .embed, m, a, b => embedCh a b m
  | .extract, m, a, _ => extractCh a m

theorem State.channelOut_startTraversal (s : State) (op : Operation) (m : Byte) (a : Nat) :
    (s.startTraversal op).channelOut m a = commandByte op m (s.read .A a) (s.read .B a) := by
  cases op <;> simp [State.channelOut, commandByte, State.read]

/-- An accepted command, whole: after `3*W*H` controller steps it is DONE, each byte of the grid is the command's and every
other byte is as it was (rules R82, R83, R95). -/
theorem State.startTraversal_runs {s : State} {op : Operation} {m : Byte} (hm : s.mask? = some m)
    (hd : op = .embed → s.DimsMatch) :
    ∃ u, controllerSteps s.gridBytes (s.startTraversal op) = .next u ∧ CommandDone s u op ∧
      (∀ a, a < s.gridBytes → u.read .O a = commandByte op m (s.read .A a) (s.read .B a)) ∧
      (∀ a, s.gridBytes ≤ a → u.read .O a = s.read .O a) ∧
      (∀ a, u.read .A a = s.read .A a ∧ u.read .B a = s.read .B a) := by
  obtain ⟨u, hu, hdone, hinv, hin, hout⟩ := State.startTraversal_done (State.nLegal_of_mask hm) hd
  obtain ⟨hn, hw, hh, hbw, hbh, -, hinfo, hl, hA, hB, hab, hsc, hlog⟩ := controllerSteps_keeps hu
  simp only [State.startTraversal_nsig, State.startTraversal_aW, State.startTraversal_aH, State.startTraversal_bW,
    State.startTraversal_bH, State.startTraversal_errinfo, State.startTraversal_opl, State.startTraversal_memA,
    State.startTraversal_memB, State.startTraversal_abandons, State.startTraversal_script,
    State.startTraversal_log] at hn hw hh hbw hbh hinfo hl hA hB hab hsc hlog
  obtain ⟨herr, hx, hy, hc⟩ := hinv.of_done hdone
  have hmask : (s.startTraversal op).mask? = some m := by rw [State.mask?_congr (State.startTraversal_nsig s op), hm]
  refine ⟨u, hu, ⟨hdone, herr, hinfo, hx, hy, hc, hl, hn, hw, hh, hbw, hbh, hA, hB, hsc, hlog, hab⟩, fun a ha => ?_,
    fun a ha => Memory.readByte_congr (hout a ha),
    fun a => ⟨State.read_congr (sp := .A) hA a, State.read_congr (sp := .B) hB a⟩⟩
  rw [← State.channelOut_startTraversal]
  exact Memory.readByte_of_peek? ((hin a ha).trans (State.finalByte?_of_mask hmask a))

/-! ## EMBED and EXTRACT, whole (rules R82, R83) -/

theorem State.channel_lt_gridBytes {s : State} {x y c : Nat} (hx : x < s.aW.toNat) (hy : y < s.aH.toNat) (hc : c ≤ 2) :
    idx x y c s.aW.toNat < s.gridBytes := idx_lt hx hy (by omega)

/-- Settles O27: the traversal of an accepted EMBED, and for the rest the first check that fails. -/
theorem embedHidesThePayload : Obligations.EmbedHidesThePayload := by
  refine ⟨fun s hb h1 h8 hw hh => ?_, fun s hb hbad => ?_⟩
  · obtain ⟨m, hm⟩ := State.exists_mask (s := s) ⟨h1, h8⟩
    obtain ⟨u, hu, hdone, hin, hout, hAB⟩ := State.startTraversal_runs (op := .embed) hm fun _ => ⟨hw, hh⟩
    exact ⟨m, _, u, hm, exec_embed_accepted hb ⟨h1, h8⟩ ⟨hw, hh⟩, hu, hdone,
      fun x y c hx hy hc => hin _ (State.channel_lt_gridBytes hx hy hc), hout, hAB⟩
  · by_cases hn : s.NLegal
    · have hlegal := mt State.not_nLegal_iff.2 (not_not.2 hn)
      have hd : ¬s.DimsMatch := State.not_dimsMatch_iff.2 (by
        rcases hbad with h | h | h
        · exact absurd (.inl h) hlegal
        · exact absurd (.inr h) hlegal
        · exact h)
      rw [if_neg hlegal]
      exact ⟨_, exec_embed_dimensionMismatch hb hn hd, rfl, rfl, fun _ => rfl⟩
    · rw [if_pos (State.not_nLegal_iff.1 hn)]
      exact ⟨_, exec_invalidConfiguration .embed hb hn, rfl, rfl, fun _ => rfl⟩

/-- Settles O28: the traversal of an accepted EXTRACT, or the check of N. -/
theorem extractRecoversTheLowBits : Obligations.ExtractRecoversTheLowBits := by
  refine ⟨fun s hb h1 h8 => ?_, fun s hb hn => ?_⟩
  · obtain ⟨m, hm⟩ := State.exists_mask (s := s) ⟨h1, h8⟩
    obtain ⟨u, hu, hdone, hin, hout, hAB⟩ := State.startTraversal_runs (op := .extract) hm fun ho => by cases ho
    exact ⟨m, _, u, hm, exec_extract_accepted hb ⟨h1, h8⟩, hu, hdone,
      fun x y c hx hy hc => hin _ (State.channel_lt_gridBytes hx hy hc), hout, hAB⟩
  · exact ⟨_, exec_invalidConfiguration .extract hb (State.not_nLegal_iff.2 hn), rfl, rfl, fun _ => rfl⟩

/-! ## The order and the number of the steps (rules R86, R88) -/

/-- What a traversal starts from meets the invariant and stands at channel 0. -/
theorem exec_busy {i : Instr} {s t : State} (hb : s.state ≠ .busy) (h : exec i s = .next t) (ht : t.state = .busy) :
    t.RegisterInv ∧ t.TraversedTo 0 ∧ t.aW = s.aW ∧ t.aH = s.aH := by
  obtain ⟨rfl, hn, hd⟩ := exec_started hb h (by simp [ht])
  exact ⟨(Accepted.started _ hn hd).registerInv, State.startTraversal_traversedTo _ (State.not_emptyGrid_of_started ht),
    by simp, by simp⟩

/-- Settles O45: the position of a running traversal is that of its channel, and `addrAt` is a bijection below `3*W*H`. -/
theorem traversalOrder : Obligations.TraversalOrder := by
  refine ⟨fun i s t hb h ht k hk => ?_, fun w h k hk => ⟨addrAt_lt hk, rfl⟩, fun w h a ha => ?_, by decide⟩
  · obtain ⟨hinv, htrav, hw, hh⟩ := exec_busy hb h ht
    rw [← hw, ← hh] at hk
    obtain ⟨u, hu, hub, -, huk, -⟩ := controllerSteps_running hinv ht htrav hk
    obtain ⟨-, huw, huh, -⟩ := controllerSteps_keeps hu
    have hpos := huk.position
    have haddr := State.addr_of_position hpos
    rw [huh, hh] at hpos
    rw [huw, huh, hw, hh] at haddr
    simp only [posAt, Prod.mk.injEq] at hpos
    obtain ⟨hx, hy, hc⟩ := hpos
    exact ⟨u, hu, hub, hc, hy, hx, haddr⟩
  · obtain ⟨k, hk, rfl⟩ := addrAt_surj ha
    exact ⟨k, ⟨hk, rfl⟩, fun j ⟨hj, he⟩ => addrAt_inj hj hk he⟩

/-- Settles O46: a traversal runs at every channel below `3*W*H` and is DONE after them. -/
theorem traversalTakesItsSteps : Obligations.TraversalTakesItsSteps := by
  intro i s t hb h ht
  obtain ⟨hinv, htrav, hw, hh⟩ := exec_busy hb h ht
  rw [← hw, ← hh]
  refine ⟨fun k hk => ?_, ?_⟩
  · obtain ⟨u, hu, hub, -⟩ := controllerSteps_running hinv ht htrav hk
    exact ⟨u, hu, hub⟩
  · obtain ⟨u, hu, hud, -⟩ := controllerSteps_done hinv ht htrav
    exact ⟨u, hu, hud⟩

/-! ## What the result depends on (rules R90, R91) -/

/-- The bytes an accepted command leaves in its grid. -/
theorem RunsTo.read_O {i : Instr} {s u : State} (h : RunsTo i s u) (hb : s.state ≠ .busy) :
    ∃ m, s.mask? = some m ∧
      ∀ a, a < s.gridBytes → u.read .O a = commandByte (operationOf i) m (s.read .A a) (s.read .B a) := by
  obtain ⟨t, ht, hte, hu⟩ := h
  obtain ⟨rfl, hn, hd⟩ := exec_started hb ht hte
  obtain ⟨m, hm⟩ := State.exists_mask hn
  obtain ⟨u', hu', -, hin, -⟩ := State.startTraversal_runs hm hd
  obtain rfl : u = u' := Host.Outcome.next.inj (hu.symm.trans hu')
  exact ⟨m, hm, hin⟩

/-- Settles O48: equal N gives one mask, and EXTRACT does not look at the byte of B. -/
theorem channelsAreIndependent : Obligations.ChannelsAreIndependent := by
  intro i s s' u u' a hb hb' h h' hn ha ha' hA hB
  obtain ⟨m, hm, hin⟩ := h.read_O hb
  obtain ⟨m', hm', hin'⟩ := h'.read_O hb'
  obtain rfl : m = m' := by
    rw [State.mask?_congr hn, hm'] at hm
    exact (Option.some.inj hm).symm
  rw [hin a ha, hin' a ha', hA]
  cases i with
  | embed => rw [hB rfl]
  | extract => rfl

theorem State.wf_writeInOrder (s : State) (m : Byte) {o : Memory} {order : List Nat} (ho : Memory.wf o = true)
    (h : ∀ a ∈ order, a < Config.addrLimit) : Memory.wf (s.writeInOrder m o order) = true := by
  induction order generalizing o with
  | nil => exact ho
  | cons a rest ih =>
    exact ih (Memory.wf_poke _ ho (h a (by simp))) fun b hb => h b (by simp [hb])

/-- Whatever the order, the addresses written hold their channels' bytes and the others what they held. -/
theorem State.peek?_writeInOrder (s : State) (m : Byte) (o : Memory) (order : List Nat) (a : Nat) :
    Memory.peek? (s.writeInOrder m o order) a = if a ∈ order then some (s.channelOut m a) else Memory.peek? o a := by
  induction order generalizing o with
  | nil => rfl
  | cons b rest ih =>
    rw [State.writeInOrder, ih, Memory.peek?_poke]
    by_cases hab : b = a
    · subst hab
      simp
    · simp [hab, Ne.symm hab]

theorem controllerSteps_succ_first {s t : State} (h : controllerStep s = .next t) (k : Nat) :
    controllerSteps (k + 1) s = controllerSteps k t := by
  simp only [controllerSteps, h]

theorem controllerSteps_succ_next {s t : State} {k : Nat} (h : controllerSteps (k + 1) s = .next t) :
    ∃ u, controllerStep s = .next u ∧ controllerSteps k u = .next t := by
  cases hc : controllerStep s with
  | next u => exact ⟨u, rfl, (controllerSteps_succ_first hc k).symm.trans h⟩
  | fault f => simp [controllerSteps, hc] at h
  | refused r => simp [controllerSteps, hc] at h

theorem controllerSteps_memoryInv {s t : State} {k : Nat} (hs : s.MemoryInv) (h : controllerSteps k s = .next t) :
    t.MemoryInv := by
  induction k generalizing s with
  | zero =>
    cases h
    exact hs
  | succ k ih =>
    obtain ⟨u, hu, hrest⟩ := controllerSteps_succ_next h
    obtain ⟨m, -, rfl⟩ := controllerStep_next hu
    exact ih (hs.writeChannel m).advance hrest

/-- Settles O49: both are canonical memories that list the same byte at every address. -/
theorem orderDoesNotMatter : Obligations.OrderDoesNotMatter := by
  intro i s t u m order hb hs h ht hm hu hperm
  obtain ⟨rfl, hn, hd⟩ := exec_started hb h (by simp [ht])
  have hmem : ∀ a, a ∈ order ↔ a < s.gridBytes := fun a => hperm.mem_iff.trans List.mem_range
  have hlimit : ∀ a ∈ order, a < Config.addrLimit := fun a ha => ((hmem a).1 ha).trans_le s.gridBytes_le
  have hwf := (controllerSteps_memoryInv ((Accepted.started _ hn hd).memoryInv hb hs) hu).wf_mem .O
  obtain ⟨u', hu', -, -, hin, hout⟩ := State.startTraversal_done hn hd
  obtain rfl : u = u' := Host.Outcome.next.inj (hu.symm.trans hu')
  have hmask : (s.startTraversal (operationOf i)).mask? = some m :=
    (State.mask?_congr (State.startTraversal_nsig s _)).trans hm
  refine Memory.ext_of_wf (State.wf_writeInOrder _ m (hs.wf_mem .O) hlimit) hwf fun a => ?_
  rw [State.peek?_writeInOrder]
  by_cases ha : a < s.gridBytes
  · rw [if_pos ((hmem a).2 ha), hin a ha, State.finalByte?_of_mask hmask]
  · rw [if_neg (mt (hmem a).1 ha), hout a (Nat.not_lt.1 ha)]

/-! ## EXTRACT and the second input (rule R93) -/

/-- The state with another second input: another B, B_W and B_H. -/
def State.withSecondInput (s : State) (w h : Word) (b : Memory) : State := { s with bW := w, bH := h, memB := b }

theorem State.startTraversal_withSecondInput (s : State) (op : Operation) (w h : Word) (b : Memory) :
    (s.withSecondInput w h b).startTraversal op = (s.startTraversal op).withSecondInput w h b := by
  simp only [State.startTraversal, apply_ite (State.withSecondInput · w h b)]
  rfl

theorem State.nextPos_withSecondInput (s : State) (w h : Word) (b : Memory) :
    (s.withSecondInput w h b).nextPos = s.nextPos.withSecondInput w h b := by
  simp only [State.nextPos, apply_ite (State.withSecondInput · w h b)]
  rfl

theorem State.advance_withSecondInput (s : State) (w h : Word) (b : Memory) :
    (s.withSecondInput w h b).advance = s.advance.withSecondInput w h b := by
  have hiff : (s.withSecondInput w h b).LastChannel ↔ s.LastChannel := Iff.rfl
  by_cases hl : s.LastChannel
  · rw [State.advance_last hl, State.advance_last (hiff.2 hl)]
    rfl
  · rw [State.advance_not_last hl, State.advance_not_last (mt hiff.1 hl), State.nextPos_withSecondInput]

/-- The split reads A alone. -/
theorem State.channelOut_withSecondInput {s : State} (hl : s.opl = .extract) (m : Byte) (a : Nat) (w h : Word)
    (b : Memory) : (s.withSecondInput w h b).channelOut m a = s.channelOut m a := by
  simp [State.channelOut, State.withSecondInput, State.read, hl]

theorem controllerStep_withSecondInput {s t : State} (hl : s.opl = .extract) (hstep : controllerStep s = .next t)
    (w h : Word) (b : Memory) : controllerStep (s.withSecondInput w h b) = .next (t.withSecondInput w h b) := by
  obtain ⟨m, hm, rfl⟩ := controllerStep_next hstep
  have hwrite : (s.withSecondInput w h b).writeChannel m = (s.writeChannel m).withSecondInput w h b := by
    rw [State.writeChannel, State.channelOut_withSecondInput hl]
    rfl
  have hmask : (s.withSecondInput w h b).mask? = some m := hm
  rw [controllerStep_of_mask hmask, hwrite, State.advance_withSecondInput]

theorem controllerSteps_withSecondInput {k : Nat} {s t : State} (hl : s.opl = .extract)
    (hsteps : controllerSteps k s = .next t) (w h : Word) (b : Memory) :
    controllerSteps k (s.withSecondInput w h b) = .next (t.withSecondInput w h b) := by
  induction k generalizing s with
  | zero =>
    cases hsteps
    rfl
  | succ k ih =>
    obtain ⟨u, hu, hrest⟩ := controllerSteps_succ_next hsteps
    obtain ⟨-, -, -, -, -, -, -, hul, -⟩ := controllerStep_keeps hu
    rw [controllerSteps_succ_first (controllerStep_withSecondInput hl hu w h b)]
    exact ih (hul.trans hl) hrest

theorem exec_extract_withSecondInput {s t : State} (hb : s.state ≠ .busy) (hexec : exec .extract s = .next t)
    (w h : Word) (b : Memory) : exec .extract (s.withSecondInput w h b) = .next (t.withSecondInput w h b) := by
  have hb' : (s.withSecondInput w h b).state ≠ .busy := hb
  have hiff : (s.withSecondInput w h b).NLegal ↔ s.NLegal := Iff.rfl
  by_cases hn : s.NLegal
  · obtain rfl := Host.Outcome.next.inj ((exec_extract_accepted hb hn).symm.trans hexec)
    rw [exec_extract_accepted hb' (hiff.2 hn), State.startTraversal_withSecondInput]
  · obtain rfl := Host.Outcome.next.inj ((exec_invalidConfiguration .extract hb hn).symm.trans hexec)
    rw [exec_invalidConfiguration .extract hb' (mt hiff.1 hn)]
    rfl

/-- Settles O50: neither acceptance nor a controller step of EXTRACT looks at the second input. -/
theorem extractIgnoresTheSecondInput : Obligations.ExtractIgnoresTheSecondInput := by
  intro s t w h b hb hexec
  refine ⟨exec_extract_withSecondInput hb hexec w h b, fun ht k u hsteps => ?_⟩
  obtain ⟨rfl, -⟩ := exec_started hb hexec (by simp [ht])
  exact controllerSteps_withSecondInput (State.startTraversal_opl s _) hsteps w h b

end Sys2Proof.Machine
end

section
/-! PROOFS about 42_traversal_commands.md, fourth part: a running traversal ends (rules R88, R128, R129), for every host that keeps
its duty of rules R42 and R50. -/

namespace Sys2Proof.Machine

/-! ## One step of a machine whose traversal runs -/

/-- While BUSY the host's next line moves if it does not hold back, and else the controller. -/
theorem State.nextMove_of_busy {s : State} (hb : s.state = .busy) :
    (s.nextMove = .controller ∧ step s = controllerStep s.tick) ∨
      ∃ l rest, s.script = l :: rest ∧ l.holdsBack = false ∧ s.nextMove = .host l.op rest ∧
        step s = hostStep l.op { s with script := rest } := by
  cases hs : s.script with
  | nil => exact .inl ⟨by simp [State.nextMove, hs, hb], step_of_controller hb (by simp [hs])⟩
  | cons l rest =>
    by_cases hl : l.holdsBack = true
    · exact .inl ⟨by simp [State.nextMove, hs, hb, hl], step_of_controller hb (by simp [hs, hl])⟩
    · have hl : l.holdsBack = false := by simpa using hl
      exact .inr ⟨l, rest, rfl, hl, by simp [State.nextMove, hs, hl], step_of_hostLine hs (.inr hl)⟩

/-- The duty looks at STATE alone. -/
theorem keepsDuty_congr {s t : State} (h : t.state = s.state) (op : HostOp) : KeepsDuty t op = KeepsDuty s op := by
  cases op <;> simp [KeepsDuty, h]

theorem ScriptLine.op_ne_wait {l : ScriptLine} (h : l.holdsBack = false) : l.op ≠ .wait := fun hw => by
  simp [ScriptLine.holdsBack, hw] at h

theorem countDown_length (ls : List ScriptLine) : (countDown ls).length = ls.length := by cases ls <;> rfl

/-- A host line taken while BUSY resets the block, or is used up with at most a read returned. -/
theorem hostStep_of_busy {s t : State} {l : ScriptLine} {rest : List ScriptLine} (hb : s.state = .busy)
    (hl : l.holdsBack = false) (h : hostStep l.op { s with script := rest } = .next t) :
    t.state = .idle ∨ (l.op.endsTraversal = false ∧ ∃ log, t = { s with script := rest, log := log }) := by
  rcases (hostStep_next h).of_busy hb with ⟨-, hidle⟩ | ⟨hw, -⟩ | hlog
  · exact .inl hidle
  · exact absurd hw (ScriptLine.op_ne_wait hl)
  · exact .inr hlog

/-- A step while a traversal runs ends it, cuts it short, or takes one of the channels or one of the host's lines that are
left. -/
theorem State.TraversedTo.step_consumes {s : State} {k : Nat} (htrav : s.TraversedTo k) (hs : s.RegisterInv)
    (hb : s.state = .busy) (hk : k < s.gridBytes)
    (hduty : ∀ op rest, s.nextMove = .host op rest → op.wellFormed = true ∧ KeepsDuty s op = true) :
    ∃ t, step s = .next t ∧ ((t.state = .done ∨ t.state = .idle) ∨
      (t.state = .busy ∧ ∃ j, j < t.gridBytes ∧ t.TraversedTo j ∧
        t.gridBytes + t.script.length + k < s.gridBytes + s.script.length + j)) := by
  rcases State.nextMove_of_busy hb with ⟨-, hstep⟩ | ⟨l, rest, hscript, hl, hmove, hstep⟩
  · have htick : s.tick.TraversedTo k := htrav
    have hinv : s.tick.RegisterInv := hs
    obtain ⟨hn, -⟩ := hs.of_busy hb
    obtain ⟨m, hm⟩ := State.exists_mask (s := s.tick) hn
    have hc := controllerStep_of_mask hm
    obtain ⟨-, -, -, -, -, -, -, -, -, -, -, hsc, -⟩ := controllerStep_keeps hc
    refine ⟨_, hstep.trans hc, ?_⟩
    rcases htick.controllerStep_next hinv hb hk hc with ⟨hd, -⟩ | ⟨hbusy, hlt, hg, hnext⟩
    · exact .inl (.inl hd)
    · have hgt : s.tick.gridBytes = s.gridBytes := rfl
      refine .inr ⟨hbusy, k + 1, by omega, hnext, ?_⟩
      rw [hsc, State.tick_script, countDown_length]
      omega
  · obtain ⟨hwf, hkeeps⟩ := hduty _ _ hmove
    obtain ⟨t, ht⟩ := hostStep_total (s := { s with script := rest }) hwf ((keepsDuty_congr rfl l.op).trans hkeeps)
    refine ⟨t, hstep.trans ht, ?_⟩
    rcases hostStep_of_busy hb hl ht with hidle | ⟨-, log, rfl⟩
    · exact .inl (.inr hidle)
    · refine .inr ⟨hb, k, hk, htrav, ?_⟩
      have hgt : State.gridBytes { s with script := rest, log := log } = s.gridBytes := rfl
      simp only [hgt, hscript, List.length_cons]
      omega

/-! ## The end of a traversal -/

/-- The channels and lines left bound the steps to the end, by induction on that bound. -/
theorem State.TraversedTo.ends {n k : Nat} {s : State} (htrav : s.TraversedTo k) (hs : s.RegisterInv)
    (hb : s.state = .busy) (hk : k < s.gridBytes) (hduty : s.HostKeepsDuty)
    (hn : s.gridBytes + s.script.length ≤ n + k) :
    ∃ (j : Nat) (t : State), j ≤ n ∧ core.run j s = .next t ∧ (t.state = .done ∨ t.state = .idle) := by
  induction n generalizing k s with
  | zero => omega
  | succ n ih =>
    have hnow : ∀ op rest, s.nextMove = .host op rest → op.wellFormed = true ∧ KeepsDuty s op = true :=
      hduty 0 s rfl fun j hj u hu => by
        obtain rfl := Nat.le_zero.1 hj
        cases hu
        exact hb
    obtain ⟨t, hstep, hend | ⟨hbusy, i, hi, hnext, hless⟩⟩ := htrav.step_consumes hs hb hk hnow
    · exact ⟨1, t, by omega, core_run_succ hstep 0, hend⟩
    · have hinv := everyStepKeepsTheRegisterInvariant.2 s t hs hstep
      obtain ⟨j, u, hj, hu, hend⟩ := ih hnext hinv hbusy hi (hduty.step hb hstep) (by omega)
      exact ⟨j + 1, u, by omega, (core_run_succ hstep j).trans hu, hend⟩

theorem State.Progress.ends {s : State} (hp : s.Progress) (hs : s.RegisterInv) (hb : s.state = .busy)
    (hduty : s.HostKeepsDuty) :
    ∃ (j : Nat) (t : State), j ≤ s.gridBytes + s.script.length ∧ core.run j s = .next t ∧
      (t.state = .done ∨ t.state = .idle) := by
  obtain ⟨k, hk, htrav⟩ := hp hb
  exact htrav.ends hs hb hk hduty (by omega)

/-! ## A script whose open lines keep the duty -/

/-- Every line at which a traversal running now can still be running is one the spec gives the host. -/
def State.OpenLinesKeepDuty (s : State) : Prop :=
  ∀ l ∈ s.openLines, l.op.wellFormed = true ∧ KeepsDuty s l.op = true

theorem HostOp.keepsDuty_of_reset {op : HostOp} (h : op.endsTraversal = true) (hw : op ≠ .wait) (s : State) :
    op.wellFormed = true ∧ KeepsDuty s op = true := by
  cases op with
  | port rst we re i v =>
    obtain rfl : rst = true := h
    exact ⟨rfl, rfl⟩
  | fill sp a bs => cases h
  | dump sp a n => cases h
  | wait => exact absurd rfl hw

theorem State.OpenLinesKeepDuty.nextMove {s : State} (h : s.OpenLinesKeepDuty) (hb : s.state = .busy) {op : HostOp}
    {rest : List ScriptLine} (hm : s.nextMove = .host op rest) : op.wellFormed = true ∧ KeepsDuty s op = true := by
  rcases State.nextMove_of_busy hb with ⟨hc, -⟩ | ⟨l, rest', hscript, hl, hmove, -⟩
  · rw [hc] at hm
    cases hm
  · obtain ⟨rfl, -⟩ := Move.host.inj (hmove.symm.trans hm)
    by_cases he : l.op.endsTraversal = true
    · exact HostOp.keepsDuty_of_reset he (ScriptLine.op_ne_wait hl) s
    · exact h l (by simp [State.openLines, hscript, he])

/-- Counting down a delay changes no line's step. -/
theorem State.openLines_tick {s : State} {l : ScriptLine} (h : l ∈ s.tick.openLines) :
    ∃ l' ∈ s.openLines, l'.op = l.op := by
  rw [State.openLines, State.tick_script] at h
  rw [State.openLines]
  cases hs : s.script with
  | nil => simp [hs, countDown] at h
  | cons l₀ rest =>
    by_cases he : l₀.op.endsTraversal = true
    · simp [hs, countDown, he] at h
    · simp only [hs, countDown, List.takeWhile_cons, he, Bool.not_false, if_true, List.mem_cons] at h ⊢
      rcases h with rfl | h
      · exact ⟨l₀, .inl rfl, rfl⟩
      · exact ⟨l, .inr h, rfl⟩

theorem State.OpenLinesKeepDuty.step {s t : State} (h : s.OpenLinesKeepDuty) (hb : s.state = .busy)
    (hstep : Sys2Proof.Machine.step s = .next t) (hbt : t.state = .busy) : t.OpenLinesKeepDuty := by
  intro l hmem
  have hsame : t.state = s.state := hbt.trans hb.symm
  rw [keepsDuty_congr hsame]
  rcases State.nextMove_of_busy hb with ⟨-, hc⟩ | ⟨l₀, rest, hscript, hl, -, hhost⟩
  · obtain ⟨-, -, -, -, -, -, -, -, -, -, -, hsc, -⟩ := controllerStep_keeps (hc.symm.trans hstep)
    rw [State.openLines, hsc] at hmem
    obtain ⟨l', hl', hop⟩ := State.openLines_tick hmem
    exact hop ▸ h l' hl'
  · rcases hostStep_of_busy hb hl (hhost.symm.trans hstep) with hidle | ⟨he, log, rfl⟩
    · simp [hidle] at hbt
    · refine h l ?_
      rw [State.openLines, hscript, List.takeWhile_cons_of_pos (by simp [he])]
      exact List.mem_cons_of_mem _ hmem

/-- A script's open lines are the only ones a running traversal can meet. -/
theorem State.OpenLinesKeepDuty.hostKeepsDuty {s : State} (h : s.OpenLinesKeepDuty) : s.HostKeepsDuty := by
  intro k t hrun hbusy op rest hm
  induction k generalizing s with
  | zero =>
    cases hrun
    exact h.nextMove (hbusy 0 (Nat.le_refl 0) t rfl) hm
  | succ k ih =>
    have hb := hbusy 0 (by omega) s rfl
    cases hstep : Machine.step s with
    | next u =>
      have hu : u.state = .busy := hbusy 1 (by omega) u (core_run_succ hstep 0)
      exact ih (h.step hb hstep hu) ((core_run_succ hstep k).symm.trans hrun)
        fun j hj v hv => hbusy (j + 1) (by omega) v ((core_run_succ hstep j).trans hv)
    | fault f =>
      have hstop : core.step s = .fault f := hstep
      simp [Host.Core.run, hstop] at hrun
    | refused r =>
      have hstop : core.step s = .refused r := hstep
      simp [Host.Core.run, hstop] at hrun

/-- Settles O47: each step takes one of the channels and lines left, and a script whose open lines keep the duty is a host that
keeps it. -/
theorem everyTraversalEnds : Obligations.EveryTraversalEnds :=
  ⟨fun _ hs hp hb hduty => hp.ends hs hb hduty,
    fun _ hs hp hb hlines => hp.ends hs hb (State.OpenLinesKeepDuty.hostKeepsDuty hlines)⟩

end Sys2Proof.Machine
end

section
/-! PROOFS about 60_exceptions.md: which error a command word raises (rules R101, R102, R106), what error entry writes and what
acceptance reads (rules R107, R108), and that an error comes from a CMD write, stays, and leaves no trace (rules R105, R109,
R110, R114); then reset over any access (rules R113, R121). -/

namespace Sys2Proof.Machine

/-! ## Error entry (rule R107) -/

theorem State.raiseError_readReg (s : State) (e : ErrCode) (info : Word) {r : Reg} (hstatus : r ≠ .status)
    (hinfo : r ≠ .errinfo) : (s.raiseError e info).readReg r = s.readReg r := by
  cases r with
  | status => exact absurd rfl hstatus
  | errinfo => exact absurd rfl hinfo
  | _ => rfl

theorem State.raiseError_read (s : State) (e : ErrCode) (info : Word) (sp : Space) (a : Nat) :
    (s.raiseError e info).read sp a = s.read sp a := by
  cases sp <;> rfl

theorem State.raiseError_statusWord (s : State) (e : ErrCode) (info : Word) :
    (s.raiseError e info).statusWord = (0 : BitVec 12) ++ e.code ++ RunState.error.code := rfl

theorem State.startTraversal_state_ne_error (s : State) (op : Operation) : (s.startTraversal op).state ≠ .error := by
  rw [State.startTraversal_state]
  split_ifs <;> decide

/-- A command word that leaves STATE ERROR has entered one of the three errors, each with its info. -/
theorem issueCommand_error {s t : State} {v : Word} (hb : s.state ≠ .busy) (h : issueCommand v s = .next t)
    (ht : t.state = .error) : ∃ e info, e ≠ .noError ∧ t = s.raiseError e info ∧
      (e = .invalidConfiguration → info = s.nsig) ∧ (e = .illegalCommand → info = v) ∧
      (e = .dimensionMismatch → info = 0) := by
  rcases issueCommand_answers hb h with rfl | rfl | rfl | ⟨op, rfl⟩
  · exact ⟨.invalidConfiguration, s.nsig, by simp⟩
  · exact ⟨.illegalCommand, v, by simp⟩
  · exact ⟨.dimensionMismatch, 0, by simp⟩
  · exact absurd ht (s.startTraversal_state_ne_error op)

/-- Settles O33: the answer is an error entry, and error entry writes STATE, ERR, ERRINFO and the position only. -/
theorem errorEntryWritesNothingElse : Obligations.ErrorEntryWritesNothingElse := by
  intro s t v hb h ht
  obtain ⟨e, info, he, rfl, hinfo⟩ := issueCommand_error hb h ht
  exact ⟨⟨e, info, he, rfl, hinfo⟩, rfl, fun r => s.raiseError_readReg e info, s.raiseError_read e info⟩

/-! ## Acceptance looks at the registers alone (rules R39, R108) -/

theorem SameRegisters.nLegal_iff {s t : State} (h : SameRegisters s t) : t.NLegal ↔ s.NLegal := by
  simp only [State.NLegal, h.nsig]

theorem SameRegisters.dimsMatch_iff {s t : State} (h : SameRegisters s t) : t.DimsMatch ↔ s.DimsMatch := by
  simp only [State.DimsMatch, h.aW, h.aH, h.bW, h.bH]

theorem SameRegisters.emptyGrid_iff {s t : State} (h : SameRegisters s t) : t.EmptyGrid ↔ s.EmptyGrid := by
  simp only [State.EmptyGrid, h.aW, h.aH]

theorem SameRegisters.raiseError {s t : State} (h : SameRegisters s t) (e : ErrCode) (info : Word) :
    SameRegisters (s.raiseError e info) (t.raiseError e info) := by
  constructor <;> simp [h.nsig, h.aW, h.aH, h.bW, h.bH, h.opl]

theorem SameRegisters.startTraversal {s t : State} (h : SameRegisters s t) (op : Operation) :
    SameRegisters (s.startTraversal op) (t.startTraversal op) := by
  constructor <;> simp [State.startTraversal_state, h.emptyGrid_iff, h.nsig, h.aW, h.aH, h.bW, h.bH]

/-- Blocks with the same registers take the same branch of a command, and answer it with the same registers. -/
theorem SameRegisters.exec {s s' : State} (h : SameRegisters s s') (hb : s.state ≠ .busy) (i : Instr) :
    ∃ t t', exec i s = .next t ∧ exec i s' = .next t' ∧ SameRegisters t t' := by
  have hb' : s'.state ≠ .busy := by rwa [h.state]
  cases i with
  | embed =>
    refine ⟨_, _, exec_embed_eq hb, exec_embed_eq hb', ?_⟩
    simp only [h.nLegal_iff, h.dimsMatch_iff, h.nsig]
    split_ifs
    · exact h.startTraversal _
    · exact h.raiseError _ _
    · exact h.raiseError _ _
  | extract =>
    refine ⟨_, _, exec_extract_eq hb, exec_extract_eq hb', ?_⟩
    simp only [h.nLegal_iff, h.nsig]
    split_ifs
    · exact h.startTraversal _
    · exact h.raiseError _ _

/-- Acceptance distinguishes the words of the two commands from the reserved words (rules R53, R54). -/
theorem commandWord_or_reserved (v : Word) : (∃ i, v = encode i) ∨ (v ≠ 0x0001 ∧ v ≠ 0x0002) := by
  by_cases hembed : v = 0x0001
  · exact .inl ⟨.embed, hembed⟩
  by_cases hextract : v = 0x0002
  · exact .inl ⟨.extract, hextract⟩
  exact .inr ⟨hembed, hextract⟩

theorem SameRegisters.issueCommand {s s' : State} (h : SameRegisters s s') (v : Word) :
    ∃ t t', issueCommand v s = .next t ∧ issueCommand v s' = .next t' ∧ SameRegisters t t' := by
  by_cases hb : s.state = .busy
  · exact ⟨s, s', issueCommand_of_busy hb v, issueCommand_of_busy (h.state.trans hb) v, h⟩
  rcases commandWord_or_reserved v with ⟨i, rfl⟩ | ⟨hembed, hextract⟩
  · rw [issueCommand_encode, issueCommand_encode]
    exact h.exec hb i
  · have hb' : s'.state ≠ .busy := by rwa [h.state]
    exact ⟨_, _, issueCommand_of_reserved hb hembed hextract, issueCommand_of_reserved hb' hembed hextract,
      h.raiseError _ _⟩

theorem issueCommand_mem {s t : State} {v : Word} (h : issueCommand v s = .next t) (sp : Space) : t.mem sp = s.mem sp := by
  rcases issueCommand_next h with ⟨-, rfl⟩ | ⟨-, ha⟩
  · rfl
  · obtain ⟨-, -, -, -, -, -, -, -, hmem⟩ := ha.keeps
    exact hmem sp

/-- Settles O34: the two starting states have the same registers, so the answers do, and each keeps its own memories. -/
theorem acceptanceReadsNoMemory : Obligations.AcceptanceReadsNoMemory := by
  intro s t v a b o h
  have hsame : SameRegisters s { s with memA := a, memB := b, memO := o } := by constructor <;> rfl
  obtain ⟨t₁, t', ht, ht', hr⟩ := hsame.issueCommand v
  obtain rfl : t = t₁ := Host.Outcome.next.inj (h.symm.trans ht)
  exact ⟨t', ht', issueCommand_mem ht' .A, issueCommand_mem ht' .B, issueCommand_mem ht' .O, hr.state, hr.err, hr.errinfo,
    hr.opl, hr.x, hr.y, hr.c, hr.nsig, hr.aW, hr.aH, hr.bW, hr.bH⟩

/-! ## Who raises an error, and what it leaves behind (rules R105, R109, R110) -/

theorem State.advance_state_ne_error {s : State} (hb : s.state = .busy) : s.advance.state ≠ .error := by
  by_cases hl : s.LastChannel
  · simp [State.advance_last hl]
  · simp [State.advance_not_last hl, hb]

/-- Settles O38: of the five effects of a step on the registers, only acceptance enters ERROR, and it is no effect of BUSY. -/
theorem errorsAreRaisedOnlyAtAcceptance : Obligations.ErrorsAreRaisedOnlyAtAcceptance := by
  refine ⟨fun s t hb h => ?_, fun s t h ht hnew => ?_⟩
  · cases step_registerEffect h with
    | kept h => exact ⟨by simp [h.state, hb], .inl h.err⟩
    | configured hnb _ _ _ => exact absurd hb hnb
    | command hs _ _ => exact absurd hb hs.1
    | reset _ s₀ => exact ⟨by simp, .inr rfl⟩
    | controller _ m _ => exact ⟨State.advance_state_ne_error hb, .inl (by simp)⟩
  · cases step_registerEffect h with
    | kept h => simp [← h.state, ht, h.err] at hnew
    | configured _ r v h =>
      have hs : s.state = .error := by simpa [ht] using h.state.symm
      simp [hs, h.err] at hnew
    | command hs _ _ => exact hs
    | reset _ s₀ => simp at ht
    | controller hb m _ => exact absurd ht (State.advance_state_ne_error hb)

/-- A failed command leaves no trace: STATE, ERR, ERRINFO and the position are all that it wrote, and acceptance overwrites
them without looking at them. -/
theorem issueCommand_raiseError {s : State} (hb : s.state ≠ .busy) (e : ErrCode) (info v : Word) :
    issueCommand v (s.raiseError e info) = issueCommand v s := by
  have hb' : (s.raiseError e info).state ≠ .busy := by simp
  rcases commandWord_or_reserved v with ⟨i, rfl⟩ | ⟨hembed, hextract⟩
  · rw [issueCommand_encode, issueCommand_encode]
    cases i with
    | embed =>
      rw [exec_embed_eq hb, exec_embed_eq hb']
      rfl
    | extract =>
      rw [exec_extract_eq hb, exec_extract_eq hb']
      rfl
  · rw [issueCommand_of_reserved hb hembed hextract, issueCommand_of_reserved hb' hembed hextract]
    rfl

theorem hostStep_wr_of_not_busy {s : State} (hb : s.state ≠ .busy) {r : Reg} (hr : r ≠ .cmd) (v : Word) :
    hostStep (HostOp.wr r v) s = .next (s.writeConfig v r) := by
  rw [hostStep_wr, writeReg_of_not_busy hb hr]

/-- Settles O40: by what can change STATUS and ERRINFO, by error entry, and by the port's rule for a configuration write. -/
theorem errorsStayAndLeaveNoTrace : Obligations.ErrorsStayAndLeaveNoTrace := by
  refine ⟨fun s t hs h => ?_, fun s t v hb h ht => ?_, fun s v hs => ?_⟩
  · by_cases hkept : t.state = s.state ∧ t.err = s.err ∧ t.errinfo = s.errinfo
    · obtain ⟨hstate, herr, hinfo⟩ := hkept
      exact .inl ⟨hstate.trans hs, herr, hinfo⟩
    · have hchanged : t.state ≠ s.state ∨ t.err ≠ s.err ∨ t.errinfo ≠ s.errinfo :=
        (not_and_or.1 hkept).imp_right not_and_or.1
      rcases statusChangesOnlyByCommandResetOrController s t h hchanged with ⟨-, hcmd⟩ | hreset | ⟨hb, -⟩
      · exact .inr (.inl hcmd)
      · exact .inr (.inr hreset)
      · exact absurd (hs.symm.trans hb) (by decide)
  · obtain ⟨e, info, -, rfl, -⟩ := issueCommand_error hb h ht
    exact ⟨issueCommand_raiseError hb e info, (issueCommand_raiseError hb e info v).trans h⟩
  · have hb : s.state ≠ .busy := by simp [hs]
    exact ⟨hostStep_wr_of_not_busy hb (by decide) v, hostStep_wr_of_not_busy hb (by decide) v,
      hostStep_wr_of_not_busy hb (by decide) v, hostStep_wr_of_not_busy hb (by decide) v,
      hostStep_wr_of_not_busy hb (by decide) v⟩

/-! ## Which error is raised (rules R101, R102, R106, R114) -/

/-- Settles O29: the check of N rejects both commands, and a write of NSIG checks nothing. -/
theorem invalidConfigurationIsRaised : Obligations.InvalidConfigurationIsRaised :=
  ⟨fun _ i hb hn => exec_invalidConfiguration i hb (State.not_nLegal_iff.2 (by omega)),
    fun _ v hb => hostStep_wr_of_not_busy hb (by decide) v⟩

/-- A command whose dimensions match, or that does not compare them, answers another error or none. -/
theorem exec_err_ne_dimensionMismatch {i : Instr} {s t : State} (hb : s.state ≠ .busy) (hd : i = .embed → s.DimsMatch)
    (h : exec i s = .next t) : t.err ≠ .dimensionMismatch := by
  by_cases hn : s.NLegal
  · cases i with
    | embed =>
      rw [exec_embed_accepted hb hn (hd rfl)] at h
      cases h
      simp
    | extract =>
      rw [exec_extract_accepted hb hn] at h
      cases h
      simp
  · rw [exec_invalidConfiguration i hb hn] at h
    cases h
    simp

/-- Settles O30: the second check of EMBED, which EXTRACT does not make. -/
theorem dimensionMismatchIsRaised : Obligations.DimensionMismatchIsRaised := by
  refine ⟨fun s hb h1 h8 hd => ?_, fun s t hb h he => ?_, fun s t hb h => ?_⟩
  · exact exec_embed_dimensionMismatch hb ⟨h1, h8⟩ (State.not_dimsMatch_iff.2 hd)
  · exact State.not_dimsMatch_iff.1 fun hd => exec_err_ne_dimensionMismatch hb (fun _ => hd) h he
  · exact exec_err_ne_dimensionMismatch hb (by simp) h

theorem issueCommand_invalidConfiguration {s : State} {v : Word} (hb : s.state ≠ .busy) (hv : v = 0x0001 ∨ v = 0x0002)
    (hn : ¬s.NLegal) : issueCommand v s = .next (s.raiseError .invalidConfiguration s.nsig) := by
  rcases hv with rfl | rfl
  · exact exec_invalidConfiguration .embed hb hn
  · exact exec_invalidConfiguration .extract hb hn

/-- Settles O32: the decoder comes before the check of N, and that before the check of the dimensions. -/
theorem errorPriority : Obligations.ErrorPriority := by
  intro s t v hb h
  refine ⟨fun ⟨hembed, hextract⟩ => ?_, fun hv hn => ?_, ?_⟩
  · rw [issueCommand_of_reserved hb hembed hextract] at h
    cases h
    exact ⟨rfl, rfl⟩
  · rw [issueCommand_invalidConfiguration hb hv (State.not_nLegal_iff.2 hn)] at h
    cases h
    exact ⟨rfl, rfl⟩
  · rintro rfl h1 h8 hd
    have h : exec .embed s = .next t := (issueCommand_encode .embed s).symm.trans h
    rw [exec_embed_dimensionMismatch hb ⟨h1, h8⟩ (State.not_dimsMatch_iff.2 hd)] at h
    cases h
    exact ⟨rfl, rfl⟩

/-- Settles O36: a read of STATUS returns the word of the error that was entered. -/
theorem theNextReadShowsTheError : Obligations.TheNextReadShowsTheError := by
  intro s t v hb h ht
  rw [hostStep_wr, writeReg_cmd] at h
  obtain ⟨e, info, he, rfl, -⟩ := issueCommand_error hb h ht
  refine ⟨_, hostStep_rd .status _, ?_⟩
  cases e with
  | noError => exact absurd rfl he
  | invalidConfiguration => exact .inl ⟨rfl, s.raiseError_statusWord .invalidConfiguration info⟩
  | dimensionMismatch => exact .inr (.inl ⟨rfl, s.raiseError_statusWord .dimensionMismatch info⟩)
  | illegalCommand => exact .inr (.inr ⟨rfl, s.raiseError_statusWord .illegalCommand info⟩)

/-! ## Reset over any access (rules R113, R121) -/

/-- Settles O53: rst is the first thing the port looks at, and a reset answers the reset values over some memories. -/
theorem resetOverridesAnyAccess : Obligations.ResetOverridesAnyAccess := by
  refine ⟨fun s we re i v => ⟨rfl, rfl⟩, fun s => ?_⟩
  obtain ⟨s₀, h, -, -⟩ := s.assertReset_eq_resetBlock
  rw [h]
  rfl

end Sys2Proof.Machine
end

section
/-! PROOFS about 70_reset_and_hazards.md: what a reset that cuts a traversal short leaves in O (rule R122). -/

namespace Sys2Proof.Machine

/-- While BUSY with a defined mask, the reset settles O over the whole grid. -/
theorem State.assertReset_memO_of_busy {s : State} {m : Byte} (hb : s.state = .busy) (hm : s.mask? = some m) :
    s.assertReset.memO = s.abandonedO m s.gridBytes := by
  rw [State.assertReset_of_busy hb, State.resetBlock_memO]
  simp only [State.abandon, hm]

/-- A running traversal has written no byte of O beyond its grid. -/
theorem State.TraversedTo.peek?_memO_beyond {s : State} {k a : Nat} (h : s.TraversedTo k) (hk : k < s.gridBytes)
    (ha : s.gridBytes ≤ a) : Memory.peek? s.memO a = Memory.peek? s.oldO a := by
  obtain ⟨-, -, hrest⟩ := h
  refine hrest a fun j hj => ?_
  have hlt : addrAt s.aW.toNat s.aH.toNat j < s.gridBytes := addrAt_lt (hj.trans hk)
  exact (hlt.trans_le ha).ne

/-- Settles O54: the free choice settles each byte of the grid one of two ways; neither the reset nor the traversal before it
writes a byte beyond the grid. -/
theorem resetCutsATraversalShort : Obligations.ResetCutsATraversalShort := by
  intro s m hb _ hmem hp hm
  obtain ⟨k, hk, htrav⟩ := hp hb
  have hO (a : Nat) := State.peek?_abandonedO (m := m) (hmem.wf_mem .O) s.gridBytes_le a
  rw [← State.assertReset_memO_of_busy hb hm] at hO
  obtain ⟨hvalues, -, -⟩ := resetValues
  obtain ⟨-, -, -, -, -, -, -, -, -, hx, hy, hc, hstatus, -⟩ := hvalues s.assertReset (.inr ⟨s, rfl⟩)
  refine ⟨fun a ha => ?_, fun a ha => ?_, hstatus, hx, hy, hc⟩
  · have hcell := hO a
    rw [if_pos ha] at hcell
    by_cases hfinal : Config.abandonedFinal s.abandons a = true
    · rw [if_pos hfinal] at hcell
      exact .inl (Memory.readByte_of_peek? hcell)
    · rw [if_neg hfinal] at hcell
      exact .inr (Memory.readByte_congr hcell)
  · have hcell := hO a
    rw [if_neg (by omega)] at hcell
    exact Memory.readByte_congr (hcell.trans (htrav.peek?_memO_beyond hk ha))

end Sys2Proof.Machine
end
